-- ==== Sys2Proof/Word.lean ====
section
/-! DEFINITION. The two widths of the hardware: 64-bit registers and 3-bit program and output elements. -/

namespace Sys2Proof

/-- The content of a general register: XLEN = 64 bits, unsigned (00_scope.md R3, 10_state.md R12). -/
abbrev Word := BitVec 64

/-- One element of the program or of the output sequence: ELEMW = 3 bits (00_scope.md R3,
20_memory.md R30, 10_state.md R16). -/
abbrev Elem := BitVec 3

end Sys2Proof
end

