-- ==== Sys2Proof/Config.lean ====
section
/-! DEFINITION. What an implementation fixes, and the values the spec leaves unspecified. None of them has a body a
proof could use. -/

namespace Sys2Proof

/-- How far PLEN_MAX lies above its least value 2; the spec leaves it OPEN (92_eei_decisions.md D19). Log 7. -/
opaque Config.plenMaxSpare : Nat

/-- PLEN_MAX, the capacity of the program memory in elements: "any value of at least 2"
(00_scope.md R3, 20_memory.md R35). Log 7. -/
def Config.plenMax : Nat := Config.plenMaxSpare + 2

/-- Register A before the first launch: unspecified (70_reset_and_hazards.md R108). Log 11. -/
opaque Config.powerOnA : Word

/-- Register B before the first launch: unspecified (R108). Log 11. -/
opaque Config.powerOnB : Word

/-- Register C before the first launch: unspecified (R108). Log 11. -/
opaque Config.powerOnC : Word

/-- IP before the first launch: unspecified (R108). Log 11. -/
opaque Config.powerOnIp : Nat

/-- OUT before the first launch: unspecified (R108). Log 11. -/
opaque Config.powerOnOut : List Elem

/-- The bits of RUN_STATE before the first launch: unspecified (R108). Log 11. -/
opaque Config.powerOnRunState : BitVec 2

/-- The bits of CAUSE before the first launch: unspecified (R108). Log 11. -/
opaque Config.powerOnCause : BitVec 3

/-- The contents of the program memory before the first load: unspecified (R108). Log 11. -/
opaque Config.powerOnTape : List Elem

end Sys2Proof
end

