-- ==== Sys2Proof/Syntax.lean ====
section
/-! DEFINITION. The instructions: one constructor per row of spec/opcode_table.json. -/

namespace Sys2Proof

/-- The instruction set (30_encoding.md R50, R51). Each of the eight opcodes carries its raw operand element, as the
spec's listings write it (R58); its meaning depends on the opcode (R47). The last five are the table's reserved rows. -/
inductive Instr where
  /-- opcode 0, combo operand (40_shift_divide.md R66) -/
  | adv (operand : Elem)
  /-- opcode 1, literal operand (41_bitwise.md R71) -/
  | bxl (operand : Elem)
  /-- opcode 2, combo operand (41_bitwise.md R72) -/
  | bst (operand : Elem)
  /-- opcode 3, literal operand (42_control_transfer.md R75) -/
  | jnz (operand : Elem)
  /-- opcode 4, operand ignored (41_bitwise.md R73) -/
  | bxc (operand : Elem)
  /-- opcode 5, combo operand (43_output.md R80) -/
  | out (operand : Elem)
  /-- opcode 6, combo operand (40_shift_divide.md R67) -/
  | bdv (operand : Elem)
  /-- opcode 7, combo operand (40_shift_divide.md R68) -/
  | cdv (operand : Elem)
  /-- the reserved word 0x07, row `adv_7` (30_encoding.md R51, 60_exceptions.md R86) -/
  | adv7
  /-- the reserved word 0x17, row `bst_7` (R51, R86) -/
  | bst7
  /-- the reserved word 0x2F, row `out_7` (R51, R86) -/
  | out7
  /-- the reserved word 0x37, row `bdv_7` (R51, R86) -/
  | bdv7
  /-- the reserved word 0x3F, row `cdv_7` (R51, R86) -/
  | cdv7
  deriving DecidableEq, Repr

/-- How an opcode uses its operand element (30_encoding.md R47). -/
inductive OperandClass where
  | literal
  | combo
  | ignored
  deriving DecidableEq, Repr

/-- The opcode element of an instruction (30_encoding.md R50). -/
def Instr.opcode : Instr → Elem
  | .adv _ => 0
  | .bxl _ => 1
  | .bst _ => 2
  | .jnz _ => 3
  | .bxc _ => 4
  | .out _ => 5
  | .bdv _ => 6
  | .cdv _ => 7
  | .adv7 => 0
  | .bst7 => 2
  | .out7 => 5
  | .bdv7 => 6
  | .cdv7 => 7

/-- The operand element of an instruction; 7 for the reserved rows (30_encoding.md R46, R51). -/
def Instr.operand : Instr → Elem
  | .adv o => o
  | .bxl o => o
  | .bst o => o
  | .jnz o => o
  | .bxc o => o
  | .out o => o
  | .bdv o => o
  | .cdv o => o
  | .adv7 => 7
  | .bst7 => 7
  | .out7 => 7
  | .bdv7 => 7
  | .cdv7 => 7

/-- The class of an instruction's operand, which the opcode alone decides (30_encoding.md R47). -/
def Instr.operandClass : Instr → OperandClass
  | .adv _ => .combo
  | .bxl _ => .literal
  | .bst _ => .combo
  | .jnz _ => .literal
  | .bxc _ => .ignored
  | .out _ => .combo
  | .bdv _ => .combo
  | .cdv _ => .combo
  | .adv7 => .combo
  | .bst7 => .combo
  | .out7 => .combo
  | .bdv7 => .combo
  | .cdv7 => .combo

/-- The name the spec's listings use (30_encoding.md R58). -/
def Instr.mnemonic : Instr → String
  | .adv _ => "adv"
  | .bxl _ => "bxl"
  | .bst _ => "bst"
  | .jnz _ => "jnz"
  | .bxc _ => "bxc"
  | .out _ => "out"
  | .bdv _ => "bdv"
  | .cdv _ => "cdv"
  | .adv7 => "adv"
  | .bst7 => "bst"
  | .out7 => "out"
  | .bdv7 => "bdv"
  | .cdv7 => "cdv"

/-- An instruction as a listing writes it: the mnemonic, a space, the operand digit (30_encoding.md R58). -/
def Instr.listing (i : Instr) : String :=
  i.mnemonic ++ " " ++ toString i.operand.toNat

end Sys2Proof
end

