-- ==== Sys2Proof/WellFormed.lean ====
section
/-! DEFINITION. Which terms of Instr are instructions of the opcode table. -/

namespace Sys2Proof

/-- A combo-class row admits the operands 0 to 6 only: operand 7 is the reserved row of the same opcode, which has
precedence (30_encoding.md R51, R54). Every operand is legal for the literal and the ignored class (R48, R51). -/
def Instr.wellFormed : Instr → Bool
  | .adv o => o != 7
  | .bxl _ => true
  | .bst o => o != 7
  | .jnz _ => true
  | .bxc _ => true
  | .out o => o != 7
  | .bdv o => o != 7
  | .cdv o => o != 7
  | .adv7 => true
  | .bst7 => true
  | .out7 => true
  | .bdv7 => true
  | .cdv7 => true

end Sys2Proof
end

