-- ==== Sys2Proof/Decode.lean ====
section
/-! DEFINITION. The decoder over program elements, total on any list of numbers, and after it the encoder. -/

namespace Sys2Proof

/-- Why a list of numbers is not an instruction. -/
inductive DecodeError where
  /-- there is no element at all -/
  | noOpcode
  /-- there is an opcode element and no operand element after it (30_encoding.md R55, 60_exceptions.md R88) -/
  | noOperand
  /-- the opcode is above 7 (30_encoding.md R52, 60_exceptions.md R87) -/
  | unknownOpcode
  /-- the operand is above 7, to which the spec gives no meaning (R52, 92_eei_decisions.md D24) -/
  | operandOutOfRange
  deriving DecidableEq, Repr

/-- The opcode map, with the five reserved rows first (30_encoding.md R50, R51, R54). -/
def decodeElems (opcode operand : Elem) : Instr :=
  match opcode.toNat with
  | 0 => if operand = 7 then .adv7 else .adv operand
  | 1 => .bxl operand
  | 2 => if operand = 7 then .bst7 else .bst operand
  | 3 => .jnz operand
  | 4 => .bxc operand
  | 5 => if operand = 7 then .out7 else .out operand
  | 6 => if operand = 7 then .bdv7 else .bdv operand
  | _ => if operand = 7 then .cdv7 else .cdv operand

/-- Decoding of two numbers read as an opcode and an operand; the opcode is looked at first
(60_exceptions.md R87). Numbers above 7 cannot stand in a 3-bit program memory; the check is kept for a reader of
wider elements (30_encoding.md R52). -/
def decodePair (opcode operand : Nat) : Except DecodeError Instr :=
  if 7 < opcode then .error .unknownOpcode
  else if 7 < operand then .error .operandOutOfRange
  else .ok (decodeElems (BitVec.ofNat 3 opcode) (BitVec.ofNat 3 operand))

/-- Decoding of a tape: the instruction of the first two elements and the rest of the tape
(20_memory.md R32, 30_encoding.md R45). -/
def decode : List Nat → Except DecodeError (Instr × List Nat)
  | [] => .error .noOpcode
  | [_] => .error .noOperand
  | opcode :: operand :: rest =>
    match decodePair opcode operand with
    | .ok i => .ok (i, rest)
    | .error e => .error e

/-- The two elements of the packed word W = 8 * opcode + operand, opcode first (30_encoding.md R46,
20_memory.md R32). -/
def unpackWord (w : Nat) : List Nat := [w / 8, w % 8]

/-- The instruction the decoder reads from the packed word `w` of a table row of `nbits` bits. The table's words have
6 bits (30_encoding.md R46); `nbits` is that width in whole bytes, and a set bit above bit 5 is an opcode above 7.
Log 16. -/
def decodeTableWord (nbits w : Nat) : Option Instr :=
  if w < 2 ^ nbits then
    match decode (unpackWord w) with
    | .ok (i, []) => some i
    | _ => none
  else none

/-- The two elements of an instruction, opcode first (30_encoding.md R46, R59). -/
def encode (i : Instr) : List Nat := [i.opcode.toNat, i.operand.toNat]

/-- The packed word W = 8 * opcode + operand (30_encoding.md R46). -/
def encodeWord (i : Instr) : Nat := 8 * i.opcode.toNat + i.operand.toNat

end Sys2Proof
end

