-- ==== Sys2Proof/Machine/State.lean ====
section
/-! DEFINITION. The state of the core, its status types, its faults and refusals, and the state after reset. -/

namespace Sys2Proof.Machine

/-- The three general registers by index: A is 0, B is 1, C is 2 (10_state.md R11). -/
inductive Reg where
  | a
  | b
  | c
  deriving DecidableEq, Repr

/-- RUN_STATE (10_state.md R18) and, as `unlaunched`, the FSM's state before the first launch
(70_reset_and_hazards.md R114). The reserved code 3 is never produced and has no constructor
(93_implementation_defined.md U15). Log 8. -/
inductive RunState where
  /-- no launch has happened since power-on; the bits of RUN_STATE are unspecified (R108) -/
  | unlaunched
  /-- the run is in progress -/
  | running
  /-- the run ended normally -/
  | halted
  /-- the run ended with a fatal error -/
  | trapped
  deriving DecidableEq, Repr

/-- CAUSE: the code of the trap that ended the run (10_state.md R19, 60_exceptions.md R85). The reserved codes 5 to 7
are never produced and have no constructor (93_implementation_defined.md U15). Log 8. -/
inductive Cause where
  /-- code 0: no trap has happened since launch -/
  | none
  /-- code 1 (60_exceptions.md R86) -/
  | invalidOperand
  /-- code 2 (60_exceptions.md R87), unreachable with 3-bit elements -/
  | unknownOpcode
  /-- code 3 (60_exceptions.md R88) -/
  | truncatedFetch
  /-- code 4 (60_exceptions.md R90) -/
  | outputOverflow
  deriving DecidableEq, Repr

/-- One element of the program memory at its element index (20_memory.md R30). It is the host's cell with the 3-bit
unit of this memory in place of a byte. Log 3. -/
abbrev Cell := Nat × Elem

/-- The program memory: cells with strictly rising indices, none of them holding what an unlisted index reads as.
Log 3, log 4. -/
abbrev Memory := List Cell

/-- What an index that is not listed reads as (DESIGN CHOICE: the spec gives the unloaded memory no contents, R108).
Log 4. -/
def Memory.unlisted : Elem := 0

/-- Why a step stops the machine. -/
inductive Fault where
  /-- Raised by `step` in the TRAPPED state, which "is never final" and "from which the core has no step"
  (60_exceptions.md R93). Safe: nothing is claimed of a run after its trap. Log 9. -/
  | trapped (cause : Cause)
  /-- Raised by `step` before the first launch: "the core executes nothing until launched"
  (70_reset_and_hazards.md R108). Safe: no claim about an unlaunched core's step. Log 9. -/
  | notLaunched
  deriving DecidableEq, Repr

/-- Why something has no meaning. -/
inductive Refusal where
  /-- Raised by an arm of `exec` whose instruction has no meaning yet; no arm does. Safe. -/
  | notModelled (mnemonic : String)
  /-- Raised by a fetch whose operand element is above 7, to which the spec gives no meaning
  (30_encoding.md R52); unreachable with 3-bit elements. Safe. Log 12. -/
  | operandOutOfRange
  /-- Raised by the host's program load while the core is RUNNING (20_memory.md R39,
  93_implementation_defined.md U16). Safe: such a launch has no meaning. Log 13. -/
  | programLoadWhileRunning
  /-- Raised by the host's program load for a token above 7, a ParseError of the host
  (70_reset_and_hazards.md R106). Safe. Log 13. -/
  | tokenOutOfRange
  /-- Raised by the host's program load for a program longer than PLEN_MAX (93_implementation_defined.md U13).
  Safe. Log 13. -/
  | programTooLong
  /-- Raised by the host's launch for a register value of 2^64 or more (10_state.md R12,
  93_implementation_defined.md U8). Safe. Log 13. -/
  | registerOutOfRange
  deriving DecidableEq, Repr

/-- The architectural state (10_state.md R10), with the program, its length and the parameter OUT_CAP, which the spec
calls parameters of the launch and of the step relation. Log 3, log 6. -/
structure State where
  /-- register A (10_state.md R11) -/
  a : Word
  /-- register B (R11) -/
  b : Word
  /-- register C (R11) -/
  c : Word
  /-- the instruction pointer, an element index (10_state.md R14, R15). Log 5. -/
  ip : Nat
  /-- OUT, the output sequence, oldest element first (10_state.md R16) -/
  out : List Elem
  /-- RUN_STATE (10_state.md R18) -/
  runState : RunState
  /-- CAUSE (10_state.md R19) -/
  cause : Cause
  /-- PROG, the program memory (20_memory.md R30) -/
  mem : Memory
  /-- PLEN, the number of elements of the loaded program (00_scope.md R3) -/
  plen : Nat
  /-- OUT_CAP, the capacity of OUT; `none` is unbounded, the spec's default (10_state.md R17) -/
  outCap : Option Nat
  deriving DecidableEq, Repr

/-- One step's outcome over this machine's state, faults and refusals. -/
abbrev Outcome := Host.Outcome State Fault Refusal

/-- The state at launch, the only reset the spec defines (10_state.md R22, 70_reset_and_hazards.md R105): IP 0, OUT
empty, RUNNING, CAUSE 0, OUT_CAP unbounded. A, B and C are the host's values in the spec, here 0 (log 1); no program is
loaded (log 2). -/
def State.reset : State where
  a := 0
  b := 0
  c := 0
  ip := 0
  out := []
  runState := .running
  cause := .none
  mem := []
  plen := 0
  outCap := none

end Sys2Proof.Machine
end

