-- ==== Sys2Proof/Machine/Ops.lean ====
section
/-! DEFINITION. The named operations over memory, registers, IP, OUT and the run status; taking a trap is one of them. -/

namespace Sys2Proof.Machine

/-! ## The program memory -/

/-- The form every memory has: indices strictly rising, no cell holding what an unlisted index reads as. -/
def Memory.wf : Memory → Bool
  | [] => true
  | (i, v) :: rest => v != Memory.unlisted && rest.all (fun cell => i < cell.1) && Memory.wf rest

/-- PROG[i], the element at index `i` (20_memory.md R31). -/
def Memory.read : Memory → Nat → Elem
  | [], _ => Memory.unlisted
  | (j, v) :: rest, i => if i = j then v else Memory.read rest i

/-- The memory with `v` at index `i`. Only a program load writes: no instruction does (20_memory.md R30). -/
def Memory.write : Memory → Nat → Elem → Memory
  | [], i, v => if v = Memory.unlisted then [] else [(i, v)]
  | (j, w) :: rest, i, v =>
    if i < j then (if v = Memory.unlisted then (j, w) :: rest else (i, v) :: (j, w) :: rest)
    else if i = j then (if v = Memory.unlisted then rest else (i, v) :: rest)
    else (j, w) :: Memory.write rest i v

/-- The memory that holds the elements of `tape` from index `base` on. -/
def Memory.ofTapeFrom : Nat → List Elem → Memory
  | _, [] => []
  | base, v :: rest =>
    if v = Memory.unlisted then Memory.ofTapeFrom (base + 1) rest
    else (base, v) :: Memory.ofTapeFrom (base + 1) rest

/-- The memory that holds a tape, the leftmost element at index 0 (20_memory.md R32). -/
def Memory.ofTape (tape : List Elem) : Memory := Memory.ofTapeFrom 0 tape

/-- The loaded program as a sequence, PROG[0] to PROG[PLEN - 1] (20_memory.md R30). -/
def State.tape (s : State) : List Elem := (List.range s.plen).map s.mem.read

/-! ## The registers -/

/-- `x[i]`, a register read (10_state.md R11). -/
def State.reg (s : State) : Reg → Word
  | .a => s.a
  | .b => s.b
  | .c => s.c

/-- `x[i] <- v`, a register write (10_state.md R11). No register is hardwired. -/
def State.setReg (s : State) (r : Reg) (v : Word) : State :=
  match r with
  | .a => { s with a := v }
  | .b => { s with b := v }
  | .c => { s with c := v }

/-! ## The arithmetic of the datapath -/

/-- `shr(a, n) = floor(a / 2^n)`: a logical shift whose amount is not reduced, so 0 for every amount of 64 or more
(40_shift_divide.md R65). Log 22. -/
def shr (a n : Word) : Word := if n.toNat < 64 then a >>> n.toNat else 0

/-- `a and 7`, as a register value (41_bitwise.md R70). -/
def andSeven (v : Word) : Word := v &&& 7

/-- `v[2:0]`, as an element (43_output.md R80). -/
def lowElem (v : Word) : Elem := v.extractLsb' 0 3

/-! ## The instruction pointer and the output sequence -/

/-- `IP <- IP + 2` (10_state.md R14, 30_encoding.md R56). -/
def State.advance (s : State) : State := { s with ip := s.ip + 2 }

/-- `IP <- target`, a taken jump (30_encoding.md R56). -/
def State.jumpTo (s : State) (target : Nat) : State := { s with ip := target }

/-- `OUT <- OUT ++ [v]` (10_state.md R16). -/
def State.pushOut (s : State) (v : Elem) : State := { s with out := s.out ++ [v] }

/-- `len(OUT) = OUT_CAP`, possible only with a finite OUT_CAP (43_output.md R80). -/
def State.outFull (s : State) : Bool := s.outCap == some s.out.length

/-! ## The end of a run -/

/-- The halting transition: RUN_STATE <- HALTED and nothing else (60_exceptions.md R95). -/
def State.halt (s : State) : State := { s with runState := .halted }

/-- Trap entry: RUN_STATE <- TRAPPED, CAUSE <- code, and nothing else; no copy of IP or status is saved and control
goes nowhere (60_exceptions.md R93). There is no return from a trap: only a launch leaves TRAPPED (R94). -/
def State.trap (s : State) (code : Cause) : State := { s with runState := .trapped, cause := code }

/-- An instruction or a fetch raises an exception: it takes the trap, which is a next state. Log 10. -/
def raise (code : Cause) (s : State) : Outcome := .next (s.trap code)

end Sys2Proof.Machine
end

