-- ==== Sys2Proof/Machine/Operands.lean ====
section
/-! DEFINITION. The operand forms: literal and combo (30_encoding.md R47 to R49). -/

namespace Sys2Proof.Machine

/-- `lit(operand)`: the element zero-extended to 64 bits (30_encoding.md R48). -/
def lit (operand : Elem) : Word := operand.setWidth 64

/-- `combo(operand)`: 0 to 3 the number itself, 4 to 6 the whole of A, B, C as they stand when the instruction
executes, 7 no value (30_encoding.md R49). -/
def combo (operand : Elem) (s : State) : Option Word :=
  match operand.toNat with
  | 0 => some (lit operand)
  | 1 => some (lit operand)
  | 2 => some (lit operand)
  | 3 => some (lit operand)
  | 4 => some (s.reg .a)
  | 5 => some (s.reg .b)
  | 6 => some (s.reg .c)
  | _ => none

/-- Resolve a combo operand and go on with its value; operand 7 raises InvalidOperand before anything is written
(30_encoding.md R49, 60_exceptions.md R86). -/
def withCombo (operand : Elem) (s : State) (go : Word → Outcome) : Outcome :=
  match combo operand s with
  | some v => go v
  | none => raise .invalidOperand s

end Sys2Proof.Machine
end

