-- ==== Sys2Proof/Machine/Bitwise.lean ====
section
/-! DEFINITION. The bitwise family: bxl, bst, bxc and the reserved word of bst (41_bitwise.md). -/

namespace Sys2Proof.Machine

/-- bxl: `B <- B xor lit(operand)` (41_bitwise.md R71). -/
def execBxl (operand : Elem) (s : State) : Outcome :=
  .next (s.setReg .b (s.reg .b ^^^ lit operand)).advance

/-- bst: `B <- combo(operand) and 7` (41_bitwise.md R72). -/
def execBst (operand : Elem) (s : State) : Outcome :=
  withCombo operand s fun v => .next (s.setReg .b (andSeven v)).advance

/-- bxc: `B <- B xor C`; the operand element is fetched and ignored, 7 included (41_bitwise.md R73). -/
def execBxc (_operand : Elem) (s : State) : Outcome :=
  .next (s.setReg .b (s.reg .b ^^^ s.reg .c)).advance

/-- The reserved word of bst (30_encoding.md R51, 60_exceptions.md R86). -/
def execBst7 (s : State) : Outcome := raise .invalidOperand s

end Sys2Proof.Machine
end

