-- ==== Sys2Proof/Machine/Flags.lean ====
section
/-! DEFINITION. The hardware has no flags (10_state.md R20). This file holds the one condition an instruction tests and
the codes of the two status fields. -/

namespace Sys2Proof.Machine

/-- The condition of jnz: the whole of A is not zero at the moment it executes
(10_state.md R20, 42_control_transfer.md R75). -/
def jumpTaken (s : State) : Bool := s.reg .a != 0

/-- The bits of RUN_STATE (10_state.md R18); before the first launch they are unspecified
(70_reset_and_hazards.md R108). Log 8, log 11. -/
def RunState.code : RunState → BitVec 2
  | .unlaunched => Config.powerOnRunState
  | .running => 0
  | .halted => 1
  | .trapped => 2

/-- The bits of CAUSE (60_exceptions.md R85). -/
def Cause.code : Cause → BitVec 3
  | .none => 0
  | .invalidOperand => 1
  | .unknownOpcode => 2
  | .truncatedFetch => 3
  | .outputOverflow => 4

/-- The cause a code names; 5 to 7 are reserved (60_exceptions.md R85). -/
def Cause.ofCode (code : BitVec 3) : Option Cause :=
  match code.toNat with
  | 0 => some .none
  | 1 => some .invalidOperand
  | 2 => some .unknownOpcode
  | 3 => some .truncatedFetch
  | 4 => some .outputOverflow
  | _ => none

/-- The status interface: RUN_STATE and CAUSE as the host reads them (10_state.md R23); both are unspecified before
the first launch (70_reset_and_hazards.md R108). -/
def State.status (s : State) : BitVec 2 × BitVec 3 :=
  match s.runState with
  | .unlaunched => (Config.powerOnRunState, Config.powerOnCause)
  | r => (r.code, s.cause.code)

end Sys2Proof.Machine
end

