-- ==== Sys2Proof/Machine/Control.lean ====
section
/-! DEFINITION. The control transfer instruction jnz (42_control_transfer.md). -/

namespace Sys2Proof.Machine

/-- jnz: if A is not 0 then `IP <- lit(operand)`, an absolute element index, else `IP <- IP + 2`; nothing about the
target is checked here (42_control_transfer.md R75, R78). Log 21. -/
def execJnz (operand : Elem) (s : State) : Outcome :=
  .next (if jumpTaken s then s.jumpTo (lit operand).toNat else s.advance)

end Sys2Proof.Machine
end

