-- ==== Sys2Proof/Machine/Output.lean ====
section
/-! DEFINITION. The output instruction out and its reserved word (43_output.md). -/

namespace Sys2Proof.Machine

/-- out: append the low three bits of `combo(operand)` to OUT; with a full OUT it raises OutputOverflow, after the
operand has been resolved (43_output.md R80, 60_exceptions.md R90, R92). Log 6, log 23. -/
def execOut (operand : Elem) (s : State) : Outcome :=
  withCombo operand s fun v =>
    if s.outFull then raise .outputOverflow s else .next (s.pushOut (lowElem v)).advance

/-- The reserved word of out: InvalidOperand, whether or not OUT is full (30_encoding.md R51, 60_exceptions.md R86,
R92). -/
def execOut7 (s : State) : Outcome := raise .invalidOperand s

end Sys2Proof.Machine
end

