-- ==== Sys2Proof/Machine/Shift.lean ====
section
/-! DEFINITION. The shift (divide) family: adv, bdv, cdv and their reserved words (40_shift_divide.md). -/

namespace Sys2Proof.Machine

/-- The family's shared effect: `dest <- A >> combo(operand)`, all reads before the write
(40_shift_divide.md R65, 70_reset_and_hazards.md R110). -/
def shiftInto (dest : Reg) (operand : Elem) (s : State) : Outcome :=
  withCombo operand s fun v => .next (s.setReg dest (shr (s.reg .a) v)).advance

/-- adv (40_shift_divide.md R66). -/
def execAdv (operand : Elem) (s : State) : Outcome := shiftInto .a operand s

/-- bdv (40_shift_divide.md R67). -/
def execBdv (operand : Elem) (s : State) : Outcome := shiftInto .b operand s

/-- cdv (40_shift_divide.md R68). -/
def execCdv (operand : Elem) (s : State) : Outcome := shiftInto .c operand s

/-- The reserved word of adv (30_encoding.md R51, 60_exceptions.md R86). -/
def execAdv7 (s : State) : Outcome := raise .invalidOperand s

/-- The reserved word of bdv (30_encoding.md R51, 60_exceptions.md R86). -/
def execBdv7 (s : State) : Outcome := raise .invalidOperand s

/-- The reserved word of cdv (30_encoding.md R51, 60_exceptions.md R86). -/
def execCdv7 (s : State) : Outcome := raise .invalidOperand s

end Sys2Proof.Machine
end

