-- ==== Sys2Proof/Machine/Dispatch.lean ====
section
/-! DEFINITION. The meaning of every instruction, one arm per constructor (30_encoding.md R57). -/

namespace Sys2Proof.Machine

def exec (i : Instr) (s : State) : Host.Outcome State Fault Refusal :=
  match i with
  | .adv operand => Sys2Proof.Machine.execAdv operand s
  | .bxl operand => Sys2Proof.Machine.execBxl operand s
  | .bst operand => Sys2Proof.Machine.execBst operand s
  | .jnz operand => Sys2Proof.Machine.execJnz operand s
  | .bxc operand => Sys2Proof.Machine.execBxc operand s
  | .out operand => Sys2Proof.Machine.execOut operand s
  | .bdv operand => Sys2Proof.Machine.execBdv operand s
  | .cdv operand => Sys2Proof.Machine.execCdv operand s
  | .adv7 => Sys2Proof.Machine.execAdv7 s
  | .bst7 => Sys2Proof.Machine.execBst7 s
  | .out7 => Sys2Proof.Machine.execOut7 s
  | .bdv7 => Sys2Proof.Machine.execBdv7 s
  | .cdv7 => Sys2Proof.Machine.execCdv7 s

end Sys2Proof.Machine
end

