-- ==== Sys2Proof/Machine/Fetch.lean ====
section
/-! DEFINITION. Fetch, what a decode failure does, and what a step does when the core is not RUNNING. -/

namespace Sys2Proof.Machine

/-- What a fetch finds (30_encoding.md R55). -/
inductive Fetched where
  /-- `IP >= PLEN`: the run ends -/
  | atEnd
  /-- `IP = PLEN - 1`: an opcode element with no operand element -/
  | truncated
  /-- the two elements PROG[IP] and PROG[IP + 1] -/
  | pair (opcode operand : Elem)
  deriving DecidableEq, Repr

/-- Fetch (30_encoding.md R55); no index at or beyond PLEN is read (20_memory.md R31), and IP may be odd
(20_memory.md R33). Log 20, log 21. -/
def fetch (s : State) : Fetched :=
  if s.plen ≤ s.ip then .atEnd
  else if s.ip + 1 = s.plen then .truncated
  else .pair (s.mem.read s.ip) (s.mem.read (s.ip + 1))

/-- What the core does when the fetched pair is no instruction. With 3-bit elements neither error it acts on can arise;
an opcode above 7 raises UnknownOpcode, and an operand above 7 has no meaning in the spec (30_encoding.md R52,
60_exceptions.md R87). A missing element is TruncatedFetch (R88). Log 12. -/
def decodeFailed (e : DecodeError) (s : State) : Outcome :=
  match e with
  | .noOpcode => raise .truncatedFetch s
  | .noOperand => raise .truncatedFetch s
  | .unknownOpcode => raise .unknownOpcode s
  | .operandOutOfRange => .refused .operandOutOfRange

/-- A step when the core is not RUNNING: HALTED holds all state (70_reset_and_hazards.md R114), TRAPPED "is treated as
a fault" and has no step (60_exceptions.md R93), and before the first launch nothing executes
(70_reset_and_hazards.md R108). RUNNING is not this function's case. Log 9. -/
def idle (s : State) : Outcome :=
  match s.runState with
  | .unlaunched => .fault .notLaunched
  | .running => .next s
  | .halted => .next s
  | .trapped => .fault (.trapped s.cause)

/-- Whether the core takes instruction steps (10_state.md R18). -/
def State.isRunning (s : State) : Bool := s.runState == .running

/-- The program memory with the packed word `w` stored as a pair at IP, and PLEN at least past it
(30_encoding.md R46). Log 17. -/
def storeAtIp (s : State) (w : Nat) : State :=
  { s with
    mem := (s.mem.write s.ip (BitVec.ofNat 3 (w / 8))).write (s.ip + 1) (BitVec.ofNat 3 (w % 8))
    plen := max s.plen (s.ip + 2)
    runState := .running }

end Sys2Proof.Machine
end

