-- ==== Sys2Proof/Machine/Step.lean ====
section
/-! DEFINITION. One step of the core (30_encoding.md R57), and the fetch aid the host uses. -/

namespace Sys2Proof.Machine

/-- One step: fetch, decode, execute (30_encoding.md R57); the order of the checks is 60_exceptions.md R92. -/
def step (s : State) : Host.Outcome State Fault Refusal :=
  if s.isRunning then
    match fetch s with
    | .atEnd => .next s.halt
    | .truncated => raise .truncatedFetch s
    | .pair opcode operand =>
      match decodePair opcode.toNat operand.toNat with
      | .ok i => exec i s
      | .error e => decodeFailed e s
  else idle s

/-- The state whose next step fetches the packed word `w`: the pair stands at IP, PLEN reaches past it, and the core is
RUNNING. It stands for the host's load of a program (70_reset_and_hazards.md R105). The memory's elements have 3 bits,
so only the 6 bits of a word are stored. Log 2, log 17. -/
def State.withFetchWord (s : State) (_nbits w : Nat) : State := storeAtIp s w

end Sys2Proof.Machine
end

