-- ==== Sys2Proof/Machine/Launch.lean ====
section
/-! DEFINITION. The host's side: power-on, program load, launch, and what the host reads back
(10_state.md R23, 70_reset_and_hazards.md). -/

namespace Sys2Proof.Machine

/-- The core before the first launch: every item of state and the program memory hold unspecified values, here the free
values of Config (70_reset_and_hazards.md R108). The host reads RUN_STATE and CAUSE through `State.status`. Log 11. -/
def State.powerOn : State where
  a := Config.powerOnA
  b := Config.powerOnB
  c := Config.powerOnC
  ip := Config.powerOnIp
  out := Config.powerOnOut
  runState := .unlaunched
  cause := (Cause.ofCode Config.powerOnCause).getD .none
  mem := Memory.ofTape Config.powerOnTape
  plen := Config.powerOnTape.length
  outCap := none

/-- The program load: PLEN and PROG[0] to PROG[PLEN - 1]; nothing else changes (10_state.md R23,
70_reset_and_hazards.md R105). -/
def State.loadTape (s : State) (tape : List Elem) : State :=
  { s with mem := Memory.ofTape tape, plen := tape.length }

/-- Launch with the host's values for A, B, C: IP 0, OUT empty, RUNNING, CAUSE 0; the program memory survives and
nothing else of the old run does (10_state.md R22, R24, 70_reset_and_hazards.md R105, R108). -/
def State.launch (s : State) (a b c : Word) : State :=
  { s with a := a, b := b, c := c, ip := 0, out := [], runState := .running, cause := .none }

/-- The moves of the host that change state (10_state.md R23). The numbers are the host's; what the hardware cannot hold
is refused. -/
inductive HostMove where
  /-- load a program given as a list of tape numbers -/
  | loadProgram (tokens : List Nat)
  /-- present three register values and launch -/
  | launch (a b c : Nat)
  deriving DecidableEq, Repr

/-- A host move. The program is not loaded while RUNNING (20_memory.md R39), holds numbers 0 to 7 and at most PLEN_MAX
of them (70_reset_and_hazards.md R106, 93_implementation_defined.md U13); a program of length 0 or of odd length is
loaded, for its behaviour is defined (70_reset_and_hazards.md R107). A launch is accepted in every run state, with
register values below 2^64 (10_state.md R12, 70_reset_and_hazards.md R108). Log 13, log 14. -/
def hostMove (m : HostMove) (s : State) : Outcome :=
  match m with
  | .loadProgram tokens =>
    if s.runState = .running then .refused .programLoadWhileRunning
    else if tokens.any (fun token => 7 < token) then .refused .tokenOutOfRange
    else if Config.plenMax < tokens.length then .refused .programTooLong
    else .next (s.loadTape (tokens.map (BitVec.ofNat 3)))
  | .launch a b c =>
    if a < 2 ^ 64 ∧ b < 2 ^ 64 ∧ c < 2 ^ 64 then
      .next (s.launch (BitVec.ofNat 64 a) (BitVec.ofNat 64 b) (BitVec.ofNat 64 c))
    else .refused .registerOutOfRange

/-- The numeric conditions the host's parser checks before a launch; their failure is its ParseError
(70_reset_and_hazards.md R106, 60_exceptions.md R89). Log 14, log 19. -/
def hostAccepts (a b c : Nat) (tokens : List Nat) : Bool :=
  decide (a < 2 ^ 64) && decide (b < 2 ^ 64) && decide (c < 2 ^ 64)
    && tokens.all (fun token => token ≤ 7) && !tokens.isEmpty && tokens.length % 2 == 0

/-- The output stream: the elements a step from `s` to `t` presents to the host (10_state.md R23, 43_output.md R81). -/
def outputEvent (s t : State) : List Elem := t.out.drop s.out.length

/-- What a run gives the host (70_reset_and_hazards.md R109). -/
inductive RunResult where
  /-- the run ended normally with this output sequence -/
  | output (elements : List Elem)
  /-- the run ended with this error kind, and with no output -/
  | error (cause : Cause)
  /-- there is no result to read -/
  | pending
  deriving DecidableEq, Repr

/-- The result the host may use: OUT only once HALTED, the error kind once TRAPPED (60_exceptions.md R93, R95,
70_reset_and_hazards.md R109). -/
def State.result (s : State) : RunResult :=
  match s.runState with
  | .halted => .output s.out
  | .trapped => .error s.cause
  | .running => .pending
  | .unlaunched => .pending

/-- What crosses the read-back interface: A, B, C, IP, `len(OUT)` and OUT (10_state.md R23). -/
structure ReadBack where
  /-- register A -/
  a : Word
  /-- register B -/
  b : Word
  /-- register C -/
  c : Word
  /-- the instruction pointer -/
  ip : Nat
  /-- `len(OUT)` -/
  outLen : Nat
  /-- OUT, oldest element first -/
  out : List Elem
  deriving DecidableEq, Repr

/-- The read-back interface, open "after the run has ended" (10_state.md R23). A halted run gives the values its last
instruction left (60_exceptions.md R95, 70_reset_and_hazards.md R109); those of a trapped run "stay readable for
diagnosis", though they are no result (60_exceptions.md R93). While RUNNING the host can only wait or relaunch (R109),
and before the first launch no run has ended (70_reset_and_hazards.md R108). -/
def State.readBack (s : State) : Option ReadBack :=
  match s.runState with
  | .halted => some ⟨s.a, s.b, s.c, s.ip, s.out.length, s.out⟩
  | .trapped => some ⟨s.a, s.b, s.c, s.ip, s.out.length, s.out⟩
  | .running => none
  | .unlaunched => none

/-- The output formatted as decimal digits joined by single commas (70_reset_and_hazards.md R109). Log 19. -/
def formatOut : List Elem → List Char
  | [] => []
  | [v] => [Char.ofNat (48 + v.toNat)]
  | v :: w :: rest => Char.ofNat (48 + v.toNat) :: ',' :: formatOut (w :: rest)

end Sys2Proof.Machine
end

