-- ==== Sys2Proof/Machine/Fsm.lean ====
section
/-! DEFINITION. The run's finite-state machine, with both kinds of event (70_reset_and_hazards.md R114). -/

namespace Sys2Proof.Machine

/-- An event of the FSM: a step of the core or a move of the host (70_reset_and_hazards.md R114). -/
inductive Event where
  | step
  | host (move : HostMove)
  deriving DecidableEq, Repr

/-- The FSM around the datapath (70_reset_and_hazards.md R114). Log 13. -/
def fsm (e : Event) (s : State) : Outcome :=
  match e with
  | .step => step s
  | .host m => hostMove m s

end Sys2Proof.Machine
end

