-- ==== Sys2Proof/Machine/Reference.lean ====
section
/-! DEFINITION. The step of 30_encoding.md R57 over unbounded natural numbers: the second view that 10_state.md R12
allows a model to take. Its program is a list of naturals, so it keeps the UnknownOpcode check (30_encoding.md R52); what
it does on an operand element above 7 is the model's choice (log 25). The core's step is stated to agree with it. -/

namespace Sys2Proof.Machine

/-- The seven items of 10_state.md R10 with natural numbers for registers and elements. -/
structure RefState where
  a : Nat
  b : Nat
  c : Nat
  ip : Nat
  out : List Nat
  runState : RunState
  cause : Cause
  deriving DecidableEq, Repr

/-- `raise` over natural numbers (60_exceptions.md R93). -/
def RefState.trap (r : RefState) (code : Cause) : RefState := { r with runState := .trapped, cause := code }

/-- `combo(operand)` over natural numbers (30_encoding.md R49). DESIGN CHOICE: an operand above 7, to which the spec gives
no meaning (30_encoding.md R52), has no value here, so that it traps as 7 does. `State.tape` holds elements of
3 bits. Log 25. -/
def refCombo (operand : Nat) (r : RefState) : Option Nat :=
  if operand ≤ 3 then some operand
  else if operand = 4 then some r.a
  else if operand = 5 then some r.b
  else if operand = 6 then some r.c
  else none

/-- One arm of R57's case distinction that resolves a combo operand first. -/
def refWithCombo (operand : Nat) (r : RefState) (go : Nat → RefState) : RefState :=
  match refCombo operand r with
  | some v => go v
  | none => r.trap .invalidOperand

/-- The case distinction of 30_encoding.md R57 over natural numbers: shifts are divisions by a power of two
(40_shift_divide.md R65), `and 7` is the remainder by 8 (41_bitwise.md R70). DESIGN CHOICE for an operand above 7, to
which the spec gives no meaning and whose program is to be refused before launch (30_encoding.md R52): it raises
InvalidOperand in the combo class, counts as its number in bxl and jnz, and is ignored by bxc. `State.tape` holds
elements of 3 bits, so no statement meets it. Log 25. -/
def refExec (cap : Option Nat) (opcode operand : Nat) (r : RefState) : RefState :=
  match opcode with
  | 0 => refWithCombo operand r fun v => { r with a := r.a / 2 ^ v, ip := r.ip + 2 }
  | 1 => { r with b := r.b ^^^ operand, ip := r.ip + 2 }
  | 2 => refWithCombo operand r fun v => { r with b := v % 8, ip := r.ip + 2 }
  | 3 => if r.a ≠ 0 then { r with ip := operand } else { r with ip := r.ip + 2 }
  | 4 => { r with b := r.b ^^^ r.c, ip := r.ip + 2 }
  | 5 => refWithCombo operand r fun v =>
      if cap = some r.out.length then r.trap .outputOverflow
      else { r with out := r.out ++ [v % 8], ip := r.ip + 2 }
  | 6 => refWithCombo operand r fun v => { r with b := r.a / 2 ^ v, ip := r.ip + 2 }
  | 7 => refWithCombo operand r fun v => { r with c := r.a / 2 ^ v, ip := r.ip + 2 }
  | _ => r.trap .unknownOpcode

/-- `step()` of 30_encoding.md R57 over natural numbers, for a RUNNING core. -/
def refStep (prog : List Nat) (cap : Option Nat) (r : RefState) : RefState :=
  if prog.length ≤ r.ip then { r with runState := .halted }
  else if r.ip + 1 = prog.length then r.trap .truncatedFetch
  else refExec cap (prog.getD r.ip 0) (prog.getD (r.ip + 1) 0) r

/-- `run()` of 30_encoding.md R57 under fuel: step while RUNNING. -/
def refRun (prog : List Nat) (cap : Option Nat) : Nat → RefState → RefState
  | 0, r => r
  | k + 1, r => if r.runState = .running then refRun prog cap k (refStep prog cap r) else r

/-- The seven items of a state of the core, as natural numbers. -/
def State.toRef (s : State) : RefState where
  a := s.a.toNat
  b := s.b.toNat
  c := s.c.toNat
  ip := s.ip
  out := s.out.map BitVec.toNat
  runState := s.runState
  cause := s.cause

end Sys2Proof.Machine
end

