-- ==== Sys2Proof/Safety.lean ====
section
/-! DEFINITION. The terms the statements use: how a run ends, the invariant of every state, well-formed programs, and
the register table of 10_state.md R13. -/

namespace Sys2Proof.Machine

/-- A run has completed successfully (60_exceptions.md R95). -/
def State.completed (s : State) : Prop := s.runState = .halted ∧ s.cause = .none

/-- A hang: after any number of steps the core is still RUNNING (60_exceptions.md R96). -/
def Hangs (s : State) : Prop := ∀ k, ∃ t, Sys2Proof.core.run k s = .next t ∧ t.runState = .running

/-- A pair of elements has a combo-class opcode (30_encoding.md R47). -/
def comboOpcode (opcode : Elem) : Bool :=
  opcode == 0 || opcode == 2 || opcode == 5 || opcode == 6 || opcode == 7

/-- What holds of every state of a launched core: the program memory has its canonical form and lists no index outside
the program (20_memory.md R35), which fits PLEN_MAX; IP is at most max(PLEN, 7) at every fetch (10_state.md R15); CAUSE
is not 0 exactly when the core is TRAPPED (10_state.md R18, R19); OUT is no longer than OUT_CAP (10_state.md R17). -/
structure State.Inv (s : State) : Prop where
  launched : s.runState ≠ .unlaunched
  memWf : s.mem.wf = true
  memBelow : ∀ i, s.plen ≤ i → s.mem.read i = Memory.unlisted
  plenFits : s.plen ≤ Config.plenMax
  ipBound : s.runState = .running → s.ip ≤ max s.plen 7
  causeMatches : s.cause ≠ .none ↔ s.runState = .trapped
  outFits : ∀ n, s.outCap = some n → s.out.length ≤ n

/-- The static part of a well-formed program (70_reset_and_hazards.md R106): even length, no jump literal at an opcode
position is odd, and no combo-class opcode there has operand 7. -/
structure State.ProgramWellFormed (s : State) : Prop where
  evenLength : s.plen % 2 = 0
  evenJumps : ∀ i, i % 2 = 0 → i + 2 ≤ s.plen → s.mem.read i = 3 → (s.mem.read (i + 1)).toNat % 2 = 0
  noReserved : ∀ i, i % 2 = 0 → i + 2 ≤ s.plen → comboOpcode (s.mem.read i) = true → s.mem.read (i + 1) ≠ 7

/-- A combo operand names the register (30_encoding.md R49). -/
def comboReads (operand : Elem) (r : Reg) : Bool :=
  match r with
  | .a => operand == 4
  | .b => operand == 5
  | .c => operand == 6

/-- The "reads" columns of the table of 10_state.md R13. -/
def instrReads (i : Instr) (r : Reg) : Bool :=
  match i with
  | .adv o => r == .a || comboReads o r
  | .bxl _ => r == .b
  | .bst o => comboReads o r
  | .jnz _ => r == .a
  | .bxc _ => r == .b || r == .c
  | .out o => comboReads o r
  | .bdv o => r == .a || comboReads o r
  | .cdv o => r == .a || comboReads o r
  | .adv7 => false
  | .bst7 => false
  | .out7 => false
  | .bdv7 => false
  | .cdv7 => false

/-- The "writes" column of the table of 10_state.md R13. -/
def instrWrites (i : Instr) (r : Reg) : Bool :=
  match i with
  | .adv _ => r == .a
  | .bxl _ => r == .b
  | .bst _ => r == .b
  | .jnz _ => false
  | .bxc _ => r == .b
  | .out _ => false
  | .bdv _ => r == .b
  | .cdv _ => r == .c
  | .adv7 => false
  | .bst7 => false
  | .out7 => false
  | .bdv7 => false
  | .cdv7 => false

/-- The next state, with `f` applied; a fault and a refusal stay. -/
def mapNext (f : State → State) (o : Outcome) : Outcome :=
  match o with
  | .next s => .next (f s)
  | .fault e => .fault e
  | .refused e => .refused e

end Sys2Proof.Machine
end

