-- ==== Sys2Proof/Certificates/Slice0/Obligations.lean ====
section
/-! DEFINITION. The statements about the model, each a Prop; none is proved here. -/

open Sys2Proof Sys2Proof.Machine

/-! ## Encoding -/

/-- Decode and encode agree on every well-formed instruction, whatever follows it on the tape
(30_encoding.md section 1 and section 3; the packed word is the spec's decision D15). -/
def Obligations.DecodeOfEncodeIsTheInstruction : Prop :=
  ∀ (i : Instr) (rest : List Nat), i.wellFormed = true → decode (encode i ++ rest) = .ok (i, rest)

/-- What the decoder accepts is the encoding of the well-formed instruction it answers, followed by the rest. -/
def Obligations.DecodedTapeIsTheEncoding : Prop :=
  ∀ (xs : List Nat) (i : Instr) (rest : List Nat), decode xs = .ok (i, rest) →
    i.wellFormed = true ∧ xs = encode i ++ rest

/-- Each of the 64 packed words decodes to exactly one well-formed instruction, whose packed word it is; the five
reserved words decode to the five reserved rows (30_encoding.md section 4). -/
def Obligations.EveryPackedWordDecodesOnce : Prop :=
  (∀ w, w < 64 → ∃ i, decodeTableWord 8 w = some i ∧ i.wellFormed = true ∧ encodeWord i = w ∧
    ∀ j : Instr, j.wellFormed = true → encodeWord j = w → j = i) ∧
  decodeTableWord 8 0x07 = some .adv7 ∧ decodeTableWord 8 0x17 = some .bst7 ∧ decodeTableWord 8 0x2F = some .out7 ∧
  decodeTableWord 8 0x37 = some .bdv7 ∧ decodeTableWord 8 0x3F = some .cdv7

/-- Words written out from the encodings of 30_encoding.md R50, one or two for each family. -/
def Obligations.WrittenOutWordsDecode : Prop :=
  decodeTableWord 8 0b000011 = some (.adv 3) ∧ decodeTableWord 8 0b110101 = some (.bdv 5) ∧
  decodeTableWord 8 0b111110 = some (.cdv 6) ∧ decodeTableWord 8 0b001111 = some (.bxl 7) ∧
  decodeTableWord 8 0b010100 = some (.bst 4) ∧ decodeTableWord 8 0b100111 = some (.bxc 7) ∧
  decodeTableWord 8 0b011110 = some (.jnz 6) ∧ decodeTableWord 8 0b101100 = some (.out 4)

/-- The decoder refuses by name: no element, one element alone, an opcode above 7 whatever follows, an operand above 7
(30_encoding.md section 4, 60_exceptions.md section 1; the model's choice of names, log 12). -/
def Obligations.DecoderRefusesByName : Prop :=
  decode [] = .error .noOpcode ∧ (∀ x, decode [x] = .error .noOperand) ∧
  (∀ x y rest, 7 < x → decode (x :: y :: rest) = .error .unknownOpcode) ∧
  (∀ x y rest, x ≤ 7 → 7 < y → decode (x :: y :: rest) = .error .operandOutOfRange)

/-! ## Fetch and step -/

/-- When the two elements at IP decode to `i`, the step of a RUNNING core is `i`'s meaning at that state: this core's
step adds nothing around it (30_encoding.md section 6). -/
def Obligations.StepRunsTheDecodedInstruction : Prop :=
  ∀ (s : State) (i : Instr), s.runState = .running → s.ip + 2 ≤ s.plen → i.wellFormed = true →
    decode [(s.mem.read s.ip).toNat, (s.mem.read (s.ip + 1)).toNat] = .ok (i, []) → step s = exec i s

/-- A word stored where the next fetch reads is the instruction the next step runs (the model's fetch aid, log 17). -/
def Obligations.FetchWordIsTheNextInstruction : Prop :=
  ∀ (s : State) (w : Nat) (i : Instr), s.mem.wf = true → decodeTableWord 8 w = some i →
    step (s.withFetchWord 8 w) = exec i (s.withFetchWord 8 w)

/-- 60_exceptions.md section 5: the halting step sets RUN_STATE to HALTED and writes nothing else, and it is the step of a fetch that finds
IP at or past PLEN and of no other; a run that halts with CAUSE 0 has completed. -/
def Obligations.HaltExactlyPastTheEnd : Prop :=
  (∀ s : State, s.runState = .running → s.plen ≤ s.ip → step s = .next { s with runState := .halted }) ∧
  (∀ s t : State, s.runState = .running → step s = .next t → t.runState = .halted →
    s.plen ≤ s.ip ∧ (s.cause = .none → t.completed))

/-- At IP = PLEN - 1 the fetch traps with TruncatedFetch, whatever the opcode element is, and writes nothing else; this
is the spec's own decision D6 (log 20). -/
def Obligations.LoneOpcodeTrapsTruncatedFetch : Prop :=
  ∀ s : State, s.runState = .running → s.ip + 1 = s.plen →
    step s = .next { s with runState := .trapped, cause := .truncatedFetch }

/-- Each step of a RUNNING core has one of three outcomes, with conditions that are disjoint and exhaustive: the run
goes on, it halts, or it traps with the first failing check's code (60_exceptions.md section 8, marked derived there;
the order is decision D13, log 23). -/
def Obligations.EveryRunningStepHasItsOutcome : Prop :=
  ∀ s : State, s.runState = .running →
    if s.plen ≤ s.ip then step s = .next { s with runState := .halted }
    else if s.ip + 1 = s.plen then step s = .next { s with runState := .trapped, cause := .truncatedFetch }
    else if comboOpcode (s.mem.read s.ip) = true ∧ s.mem.read (s.ip + 1) = 7 then
      step s = .next { s with runState := .trapped, cause := .invalidOperand }
    else if s.mem.read s.ip = 5 ∧ s.outCap = some s.out.length then
      step s = .next { s with runState := .trapped, cause := .outputOverflow }
    else ∃ t, step s = .next t ∧ t.runState = .running ∧ t.cause = s.cause

/-- A core that is not RUNNING takes no instruction: HALTED holds all state, TRAPPED is the fault with its cause, and an
unlaunched core executes nothing (the model's reading of 60_exceptions.md R93, R100 and 70_reset_and_hazards.md R114,
log 9). -/
def Obligations.StoppedCoreTakesNoInstruction : Prop :=
  (∀ s : State, s.runState = .halted → step s = .next s) ∧
  (∀ s : State, s.runState = .trapped → step s = .fault (.trapped s.cause)) ∧
  (∀ s : State, s.runState = .unlaunched → step s = .fault .notLaunched)

/-- No state's step is refused (60_exceptions.md section 8: "no refusal inside a run"). -/
def Obligations.NoStepIsRefused : Prop :=
  ∀ (s : State) (r : Refusal), step s ≠ .refused r

/-- On every RUNNING state the step over 64-bit registers answers a next state, and it is the step
of 30_encoding.md section 6 over unbounded natural numbers, as 10_state.md section 2 says with decision D2 and a clause
marked derived. -/
def Obligations.StepAgreesWithNaturalNumbers : Prop :=
  ∀ s : State, s.runState = .running → ∃ t, step s = .next t ∧
    t.toRef = refStep (s.tape.map BitVec.toNat) s.outCap s.toRef

/-- Every run over 64-bit registers is the run of 30_encoding.md section 6 over unbounded natural numbers, of the same
program from the same values, for as many steps as it has (10_state.md section 2, decision D2 and a clause marked
derived). -/
def Obligations.RunAgreesWithNaturalNumbers : Prop :=
  ∀ (k : Nat) (s t : State), Sys2Proof.core.run k s = .next t →
    t.toRef = refRun (s.tape.map BitVec.toNat) s.outCap k s.toRef

/-! ## Operands and arithmetic -/

/-- R48: a literal operand is the element's number, all eight operands of bxl and jnz are legal, and 7 traps neither. -/
def Obligations.LiteralOperandIsItsNumber : Prop :=
  (∀ o : Elem, (lit o).toNat = o.toNat) ∧
  (∀ (o : Elem) (s : State), ∃ t, exec (.bxl o) s = .next t ∧ t.runState = s.runState ∧ t.cause = s.cause) ∧
  (∀ (o : Elem) (s : State), ∃ t, exec (.jnz o) s = .next t ∧ t.runState = s.runState ∧ t.cause = s.cause)

/-- R49: the value of a combo operand for each operand element; 7 has none and raises InvalidOperand with nothing
written, and the opcodes 1, 3 and 4 never evaluate it. -/
def Obligations.ComboOperandIsNumberOrRegister : Prop :=
  (∀ (o : Elem) (s : State), o.toNat ≤ 3 → ∃ v, combo o s = some v ∧ v.toNat = o.toNat) ∧
  (∀ s : State, combo 4 s = some s.a ∧ combo 5 s = some s.b ∧ combo 6 s = some s.c ∧ combo 7 s = none) ∧
  (∀ (s : State) (go : Word → Outcome),
    withCombo 7 s go = .next { s with runState := .trapped, cause := .invalidOperand }) ∧
  (∀ (o : Elem) (s : State) (i : Instr), i = .bxl o ∨ i = .jnz o ∨ i = .bxc o →
    ∃ t, exec i s = .next t ∧ t.runState = s.runState ∧ t.cause = s.cause)

/-- The shift as a hardware shifter realises it, and its laws: amounts add up, a shift by itself is 0, the result never
grows (40_shift_divide.md section 1, with decision D8 and two clauses marked derived; log 22). -/
def Obligations.ShiftLaws : Prop :=
  (∀ a n : Word, shr a n = if n.extractLsb' 6 58 = 0 then a >>> (n.extractLsb' 0 6).toNat else 0) ∧
  (∀ a m n : Word, (shr (shr a m) n).toNat = a.toNat / 2 ^ (m.toNat + n.toNat)) ∧
  (∀ a n : Word, a.toNat < 2 ^ n.toNat → shr a n = 0) ∧
  (∀ a : Word, shr a 0 = a ∧ shr a a = 0) ∧
  (∀ a n : Word, (shr a n).toNat ≤ a.toNat)

/-! ## The shift family -/

/-- R66: adv writes floor(A / 2^combo) to A and advances; nothing else changes. Operand 7, as a term or as the reserved
word, raises InvalidOperand with nothing written. -/
def Obligations.AdvDividesAIntoA : Prop :=
  (∀ (o : Elem) (s : State), o ≠ 7 → ∃ v, combo o s = some v ∧
    exec (.adv o) s = .next { s with a := BitVec.ofNat 64 (s.a.toNat / 2 ^ v.toNat), ip := s.ip + 2 }) ∧
  (∀ (s : State) (i : Instr), i = .adv 7 ∨ i = .adv7 →
    exec i s = .next { s with runState := .trapped, cause := .invalidOperand }) ∧
  (∀ o : Elem, decodeTableWord 8 (0b000000 + o.toNat) = some (if o = 7 then .adv7 else .adv o))

/-- R67: bdv writes floor(A / 2^combo) to B and advances; nothing else changes, A included. -/
def Obligations.BdvDividesAIntoB : Prop :=
  (∀ (o : Elem) (s : State), o ≠ 7 → ∃ v, combo o s = some v ∧
    exec (.bdv o) s = .next { s with b := BitVec.ofNat 64 (s.a.toNat / 2 ^ v.toNat), ip := s.ip + 2 }) ∧
  (∀ (s : State) (i : Instr), i = .bdv 7 ∨ i = .bdv7 →
    exec i s = .next { s with runState := .trapped, cause := .invalidOperand }) ∧
  (∀ o : Elem, decodeTableWord 8 (0b110000 + o.toNat) = some (if o = 7 then .bdv7 else .bdv o))

/-- R68: cdv writes floor(A / 2^combo) to C and advances; nothing else changes, A included. -/
def Obligations.CdvDividesAIntoC : Prop :=
  (∀ (o : Elem) (s : State), o ≠ 7 → ∃ v, combo o s = some v ∧
    exec (.cdv o) s = .next { s with c := BitVec.ofNat 64 (s.a.toNat / 2 ^ v.toNat), ip := s.ip + 2 }) ∧
  (∀ (s : State) (i : Instr), i = .cdv 7 ∨ i = .cdv7 →
    exec i s = .next { s with runState := .trapped, cause := .invalidOperand }) ∧
  (∀ o : Elem, decodeTableWord 8 (0b111000 + o.toNat) = some (if o = 7 then .cdv7 else .cdv o))

/-- A step never makes A larger, and only a fetched adv changes it (40_shift_divide.md section 1,
10_state.md section 2; 42_control_transfer.md section 2 marks its form of this as derived). -/
def Obligations.OnlyAdvChangesAAndNeverUpwards : Prop :=
  ∀ s t : State, step s = .next t → t.a.toNat ≤ s.a.toNat ∧
    (t.a ≠ s.a → s.ip + 2 ≤ s.plen ∧ s.mem.read s.ip = 0 ∧ s.mem.read (s.ip + 1) ≠ 7)

/-- The property the solver relies on: two adv by literals shift A by the sum (40_shift_divide.md section 1, marked
derived there). -/
def Obligations.TwoAdvByLiteralsAddUp : Prop :=
  ∀ (m n : Elem) (s t u : State), m.toNat ≤ 3 → n.toNat ≤ 3 →
    exec (.adv m) s = .next t → exec (.adv n) t = .next u →
    u = { s with a := BitVec.ofNat 64 (s.a.toNat / 2 ^ (m.toNat + n.toNat)), ip := s.ip + 4 }

/-! ## The bitwise family -/

/-- R71: bxl writes B xor the literal to B and advances, for all eight operands; bits 63 to 3 of B stay; nothing else
changes. -/
def Obligations.BxlXorsTheLiteralIntoB : Prop :=
  (∀ (o : Elem) (s : State),
    exec (.bxl o) s = .next { s with b := BitVec.ofNat 64 (s.b.toNat ^^^ o.toNat), ip := s.ip + 2 }) ∧
  (∀ (o : Elem) (s t : State), exec (.bxl o) s = .next t → ∀ k, 3 ≤ k → t.b.getLsbD k = s.b.getLsbD k) ∧
  (∀ o : Elem, decodeTableWord 8 (0b001000 + o.toNat) = some (.bxl o))

/-- R72: bst writes the combo value's low three bits to B, clearing bits 63 to 3, and advances; operand 7 raises
InvalidOperand with nothing written. -/
def Obligations.BstLoadsTheLowThreeBits : Prop :=
  (∀ (o : Elem) (s : State), o ≠ 7 → ∃ v, combo o s = some v ∧
    exec (.bst o) s = .next { s with b := BitVec.ofNat 64 (v.toNat % 8), ip := s.ip + 2 }) ∧
  (∀ (s : State) (i : Instr), i = .bst 7 ∨ i = .bst7 →
    exec i s = .next { s with runState := .trapped, cause := .invalidOperand }) ∧
  (∀ o : Elem, decodeTableWord 8 (0b010000 + o.toNat) = some (if o = 7 then .bst7 else .bst o))

/-- R73: bxc writes B xor C to B and advances, whatever its operand element; nothing else changes, C included. -/
def Obligations.BxcXorsCIntoB : Prop :=
  (∀ (o : Elem) (s : State), exec (.bxc o) s = .next { s with b := s.b ^^^ s.c, ip := s.ip + 2 }) ∧
  (∀ o : Elem, decodeTableWord 8 (0b100000 + o.toNat) = some (.bxc o))

/-- A bxl done twice, and a bxc done twice, restore B and move IP by 4 (corner cases of R71 and R73). -/
def Obligations.XorTwiceRestoresB : Prop :=
  ∀ (o : Elem) (i : Instr) (s t u : State), i = .bxl o ∨ i = .bxc o →
    exec i s = .next t → exec i t = .next u → u = { s with ip := s.ip + 4 }

/-! ## Control transfer -/

/-- R75: jnz sets IP to the literal when A is not 0 and to IP + 2 when it is; IP is the only state written, and no
operand traps. -/
def Obligations.JnzJumpsWhenAIsNotZero : Prop :=
  (∀ (o : Elem) (s : State), s.a ≠ 0 → exec (.jnz o) s = .next { s with ip := o.toNat }) ∧
  (∀ (o : Elem) (s : State), s.a = 0 → exec (.jnz o) s = .next { s with ip := s.ip + 2 }) ∧
  (∀ o : Elem, decodeTableWord 8 (0b011000 + o.toNat) = some (.jnz o))

/-- An instruction that does not trap ends with IP + 2, but for jnz with A not 0, which ends with its literal
(30_encoding.md section 6). One that traps does not write IP, and it traps only with a reserved operand or, by the
spec's decision D9 (log 6), as an out with a full OUT (60_exceptions.md section 1). -/
def Obligations.PointerUpdate : Prop :=
  ∀ (i : Instr) (s : State), s.runState = .running → ∃ t, exec i s = .next t ∧
    (t.runState = .trapped ∧ t.ip = s.ip ∧
        (i.operandClass = .combo ∧ i.operand = 7 ∨ i.opcode = 5 ∧ s.outCap = some s.out.length) ∨
     t.runState = .running ∧ t.ip = (match i with
      | .jnz o => if s.a = 0 then s.ip + 2 else o.toNat
      | _ => s.ip + 2))

/-- Element indices of 8 and above are reached only by falling through (42_control_transfer.md section 2, marked
derived there). -/
def Obligations.HighIndicesAreReachedByFallingThrough : Prop :=
  ∀ s t : State, step s = .next t → 8 ≤ t.ip → t.ip = s.ip ∨
    t.ip = s.ip + 2 ∧ s.runState = .running ∧ s.ip + 2 ≤ s.plen

/-- A jnz to its own index with A not 0 repeats for ever: the state never changes, and the run hangs
(42_control_transfer.md section 1 and section 2, 60_exceptions.md section 5). -/
def Obligations.SelfJumpRepeatsForEver : Prop :=
  ∀ s : State, s.runState = .running → s.ip + 2 ≤ s.plen → s.mem.read s.ip = 3 →
    (s.mem.read (s.ip + 1)).toNat = s.ip → s.a ≠ 0 →
    Hangs s ∧ ∀ k, Sys2Proof.core.run k s = .next s

/-- Once IP is odd it stays odd until a taken jnz with an even literal or the end of the run (20_memory.md section 3;
decision D7, log 21). -/
def Obligations.OddPointerStaysOdd : Prop :=
  ∀ s t : State, s.ip % 2 = 1 → step s = .next t → t.ip % 2 = 1 ∨
    (s.ip + 2 ≤ s.plen ∧ s.mem.read s.ip = 3 ∧ (s.mem.read (s.ip + 1)).toNat % 2 = 0 ∧ s.a ≠ 0)

/-! ## Output -/

/-- R80: out appends the combo value's low three bits to OUT and advances; operand 7 raises InvalidOperand, OUT full or
not; otherwise a full OUT raises OutputOverflow. A trap appends nothing. -/
def Obligations.OutAppendsTheLowThreeBits : Prop :=
  (∀ (o : Elem) (s : State), o ≠ 7 → s.outCap ≠ some s.out.length → ∃ v, combo o s = some v ∧
    exec (.out o) s = .next { s with out := s.out ++ [BitVec.ofNat 3 (v.toNat % 8)], ip := s.ip + 2 }) ∧
  (∀ (o : Elem) (s : State), o ≠ 7 → s.outCap = some s.out.length →
    exec (.out o) s = .next { s with runState := .trapped, cause := .outputOverflow }) ∧
  (∀ (s : State) (i : Instr), i = .out 7 ∨ i = .out7 →
    exec i s = .next { s with runState := .trapped, cause := .invalidOperand }) ∧
  (∀ o : Elem, decodeTableWord 8 (0b101000 + o.toNat) = some (if o = 7 then .out7 else .out o))

/-- OUT is append-only, and the output stream carries what is appended: nothing, or for a fetched out one element, the
low three bits of its combo value (10_state.md section 4, 43_output.md section 1; the stream is decision D17). -/
def Obligations.OutputIsAppendOnly : Prop :=
  ∀ s t : State, step s = .next t → t.out = s.out ++ outputEvent s t ∧
    (outputEvent s t = [] ∨
      (s.runState = .running ∧ s.ip + 2 ≤ s.plen ∧ s.mem.read s.ip = 5 ∧ ∃ v,
        combo (s.mem.read (s.ip + 1)) s = some v ∧ outputEvent s t = [BitVec.ofNat 3 (v.toNat % 8)]))

/-- With an unbounded OUT no step raises OutputOverflow (60_exceptions.md section 1, decision D9, log 6). -/
def Obligations.UnboundedOutputNeverOverflows : Prop :=
  ∀ s t : State, s.outCap = none → s.runState = .running → step s = .next t → t.runState = .trapped →
    t.cause ≠ .outputOverflow

/-! ## Traps -/

/-- R86: a running core takes the InvalidOperand trap when, and only when, it executes a combo-class opcode with operand
element 7; the trap writes RUN_STATE and CAUSE alone, so IP stays at the opcode. -/
def Obligations.InvalidOperandExactlyOnReservedWords : Prop :=
  (∀ s : State, s.runState = .running → s.ip + 2 ≤ s.plen → comboOpcode (s.mem.read s.ip) = true →
    s.mem.read (s.ip + 1) = 7 → step s = .next { s with runState := .trapped, cause := .invalidOperand }) ∧
  (∀ s t : State, s.runState = .running → step s = .next t → t.runState = .trapped → t.cause = .invalidOperand →
    s.ip + 2 ≤ s.plen ∧ comboOpcode (s.mem.read s.ip) = true ∧ s.mem.read (s.ip + 1) = 7)

/-- The five reserved rows take the InvalidOperand trap and write nothing but RUN_STATE and CAUSE, exactly as their
opcode does with operand 7 (30_encoding.md section 4, 60_exceptions.md section 1). -/
def Obligations.ReservedRowsTakeTheTrap : Prop :=
  ∀ (s : State) (i j : Instr),
    (i = .adv7 ∧ j = .adv 7) ∨ (i = .bst7 ∧ j = .bst 7) ∨ (i = .out7 ∧ j = .out 7) ∨
      (i = .bdv7 ∧ j = .bdv 7) ∨ (i = .cdv7 ∧ j = .cdv 7) →
    exec i s = .next { s with runState := .trapped, cause := .invalidOperand } ∧ exec j s = exec i s ∧
      encodeWord i = encodeWord j

/-- Traps are precise: a trapping step writes RUN_STATE and CAUSE alone, and the code is not 0
(60_exceptions.md section 4, decision D12, log 10). -/
def Obligations.TrapsArePrecise : Prop :=
  ∀ s t : State, s.runState = .running → step s = .next t → t.runState = .trapped →
    t.cause ≠ .none ∧ t = { s with runState := .trapped, cause := t.cause }

/-- With 3-bit elements no step raises UnknownOpcode (30_encoding.md section 4, marked derived there; log 12). -/
def Obligations.UnknownOpcodeIsNeverRaised : Prop :=
  ∀ s t : State, s.runState = .running → step s = .next t → t.runState = .trapped → t.cause ≠ .unknownOpcode

/-- RUN_STATE moves only from RUNNING to HALTED or TRAPPED, and CAUSE changes only with a trap
(10_state.md section 5, decisions D10 and D25). -/
def Obligations.RunStateTransitions : Prop :=
  ∀ s t : State, step s = .next t →
    (s.runState = .running ∧ t.runState = .running ∧ t.cause = s.cause) ∨
    (s.runState = .running ∧ t.runState = .halted ∧ t.cause = s.cause) ∨
    (s.runState = .running ∧ t.runState = .trapped) ∨
    (s.runState = .halted ∧ t = s)

/-! ## Frames -/

/-- The register table: an instruction leaves every register it does not list as written, and does not depend on any
register it does not list as read; no instruction writes two registers (10_state.md section 2). -/
def Obligations.RegisterReadWriteTable : Prop :=
  (∀ (i : Instr) (s : State) (r : Reg), instrWrites i r = false →
    ∃ t, exec i s = .next t ∧ t.reg r = s.reg r) ∧
  (∀ (i : Instr) (s : State) (r : Reg) (v : Word), i.wellFormed = true → instrReads i r = false →
    instrWrites i r = false → exec i (s.setReg r v) = mapNext (fun t => t.setReg r v) (exec i s)) ∧
  (∀ (i : Instr) (s : State) (r : Reg) (v : Word), i.wellFormed = true → instrReads i r = false →
    instrWrites i r = true → exec i (s.setReg r v) = exec i s) ∧
  (∀ (i : Instr) (r r' : Reg), instrWrites i r = true → instrWrites i r' = true → r = r')

/-- No instruction writes the program memory, its length or OUT_CAP: every index reads as before, after an instruction
and after any number of steps (20_memory.md section 1). -/
def Obligations.ProgramIsReadOnly : Prop :=
  (∀ (i : Instr) (s : State), ∃ t, exec i s = .next t ∧ (∀ k, t.mem.read k = s.mem.read k) ∧
    t.mem = s.mem ∧ t.plen = s.plen ∧ t.outCap = s.outCap) ∧
  (∀ (n : Nat) (s t : State), Sys2Proof.core.run n s = .next t →
    (∀ k, t.mem.read k = s.mem.read k) ∧ t.mem = s.mem ∧ t.plen = s.plen ∧ t.outCap = s.outCap)

/-! ## Invariants and safety -/

/-- Every step from a state with the invariant keeps it: canonical memory inside the program, IP at most max(PLEN, 7)
while RUNNING, CAUSE matching RUN_STATE, OUT within OUT_CAP. -/
def Obligations.StepKeepsInvariant : Prop :=
  ∀ s t : State, s.Inv → step s = .next t → t.Inv

/-- The state after reset has the invariant. -/
def Obligations.ResetHasInvariant : Prop := State.reset.Inv

/-- Every move of the host keeps the invariant (70_reset_and_hazards.md section 1 and section 2; log 13). -/
def Obligations.HostMovesKeepInvariant : Prop :=
  ∀ (m : HostMove) (s t : State), s.Inv → hostMove m s = .next t → t.Inv

/-- A well-formed program never traps: from an even IP with an unbounded OUT, after any number of steps the core is
RUNNING or HALTED, with CAUSE as it was and IP even while RUNNING (30_encoding.md section 6, 20_memory.md section 3,
70_reset_and_hazards.md section 2; it uses decision D7, log 21). -/
def Obligations.WellFormedProgramsNeverTrap : Prop :=
  ∀ (k : Nat) (s : State), s.ProgramWellFormed → s.runState = .running → s.ip % 2 = 0 → s.outCap = none →
    ∃ t, Sys2Proof.core.run k s = .next t ∧ t.cause = s.cause ∧ t.ProgramWellFormed ∧ t.ip % 2 = 0 ∧
      (t.runState = .running ∨ t.runState = .halted)

/-! ## Reset, launch and the host -/

/-- The state after reset: IP 0, OUT empty, RUNNING, CAUSE 0, OUT unbounded (10_state.md section 7); A, B, C at 0
(log 1) and no program loaded (log 2) are the model's choice. Its first step halts, as an empty program's does
(70_reset_and_hazards.md section 2). -/
def Obligations.ResetState : Prop :=
  State.reset.ip = 0 ∧ State.reset.out = [] ∧ State.reset.runState = .running ∧ State.reset.cause = .none ∧
  State.reset.outCap = none ∧ State.reset.a = 0 ∧ State.reset.b = 0 ∧ State.reset.c = 0 ∧
  State.reset.mem = [] ∧ State.reset.plen = 0 ∧
  step State.reset = .next { State.reset with runState := .halted }

/-- A launch is accepted in every run state and sets every item of state but the program, which survives; a register
value of 2^64 or more is refused (70_reset_and_hazards.md section 1 and section 2, 10_state.md section 7, decision
D18). -/
def Obligations.LaunchSetsEveryItem : Prop :=
  (∀ (s : State) (a b c : Word), hostMove (.launch a.toNat b.toNat c.toNat) s =
    .next { a := a, b := b, c := c, ip := 0, out := [], runState := .running, cause := .none,
            mem := s.mem, plen := s.plen, outCap := s.outCap }) ∧
  (∀ (s : State) (a b c : Nat), 2 ^ 64 ≤ a ∨ 2 ^ 64 ≤ b ∨ 2 ^ 64 ≤ c →
    hostMove (.launch a b c) s = .refused .registerOutOfRange)

/-- A program load stores the tape with its first number at index 0 and changes nothing else; while RUNNING it is
refused (70_reset_and_hazards.md section 1 and section 2, 20_memory.md section 2 and section 7). -/
def Obligations.ProgramLoadStoresTheTape : Prop :=
  (∀ (s : State) (tokens : List Nat), s.runState ≠ .running → (∀ x ∈ tokens, x ≤ 7) →
    tokens.length ≤ Config.plenMax →
    ∃ t, hostMove (.loadProgram tokens) s = .next t ∧ t = { s with mem := t.mem, plen := tokens.length } ∧
      t.mem.wf = true ∧ t.tape.map BitVec.toNat = tokens ∧
      ∀ i, tokens.length ≤ i → t.mem.read i = Memory.unlisted) ∧
  (∀ (s : State) (tokens : List Nat), s.runState = .running →
    hostMove (.loadProgram tokens) s = .refused .programLoadWhileRunning)

/-- What the host's check accepts can be loaded and launched, if it fits the program memory, and the run then starts at
index 0 of exactly that program (70_reset_and_hazards.md section 2). -/
def Obligations.AcceptedInputStartsARun : Prop :=
  ∀ (s : State) (a b c : Nat) (tokens : List Nat), hostAccepts a b c tokens = true → s.runState ≠ .running →
    tokens.length ≤ Config.plenMax →
    ∃ t u, hostMove (.loadProgram tokens) s = .next t ∧ hostMove (.launch a b c) t = .next u ∧
      u.a.toNat = a ∧ u.b.toNat = b ∧ u.c.toNat = c ∧ u.ip = 0 ∧ u.out = [] ∧ u.runState = .running ∧
      u.cause = .none ∧ u.tape.map BitVec.toNat = tokens ∧ u.plen % 2 = 0 ∧ 2 ≤ u.plen

/-- Two launches with the same register values over the same program go through the same states, whatever was in the
machine before (70_reset_and_hazards.md section 6, whose stronger sentence is marked derived there). -/
def Obligations.LaunchForgetsTheOldRun : Prop :=
  ∀ (s s' : State) (a b c : Word) (k : Nat), s.mem = s'.mem → s.plen = s'.plen → s.outCap = s'.outCap →
    Sys2Proof.core.run k (s.launch a b c) = Sys2Proof.core.run k (s'.launch a b c)

/-- Where the two kinds of event of the run's FSM lead (70_reset_and_hazards.md section 7): a launch leads to RUNNING with
the launch values from every state; a step from RUNNING halts past the end, and inside the program it goes on RUNNING or
traps, writing RUN_STATE and CAUSE alone; a step from elsewhere leads to no other state. Which of the two a step inside
the program does, `EveryRunningStepHasItsOutcome` says; that TRAPPED and the unlaunched state have no next state is the
model's reading (log 9). -/
def Obligations.FsmTable : Prop :=
  (∀ (s : State) (a b c : Word), ∃ t, fsm (.host (.launch a.toNat b.toNat c.toNat)) s = .next t ∧
    t.runState = .running ∧ t.ip = 0 ∧ t.out = [] ∧ t.cause = .none ∧ t.a = a ∧ t.b = b ∧ t.c = c) ∧
  (∀ s : State, s.runState = .running → s.plen ≤ s.ip → fsm .step s = .next { s with runState := .halted }) ∧
  (∀ s : State, s.runState = .running → s.ip < s.plen → ∃ t, fsm .step s = .next t ∧
    (t.runState = .running ∧ t.cause = s.cause ∨
      t.cause ≠ .none ∧ t = { s with runState := .trapped, cause := t.cause })) ∧
  (∀ s t : State, s.runState ≠ .running → fsm .step s = .next t → t = s)

/-- What the host reads: OUT once HALTED, the error kind and no output once TRAPPED, nothing before; and the codes of
RUN_STATE and CAUSE (60_exceptions.md section 1 and section 4, 70_reset_and_hazards.md section 3, decisions D10 and
D11). -/
def Obligations.HostReadsTheResult : Prop :=
  (∀ s : State, s.runState = .halted → s.result = .output s.out ∧ s.status = (1, s.cause.code)) ∧
  (∀ s : State, s.runState = .trapped → s.result = .error s.cause ∧ s.status = (2, s.cause.code)) ∧
  (∀ s : State, s.runState = .running → s.result = .pending ∧ s.status = (0, s.cause.code)) ∧
  (∀ c : Cause, Cause.ofCode c.code = some c) ∧
  Cause.code .none = 0 ∧ Cause.code .invalidOperand = 1 ∧ Cause.code .unknownOpcode = 2 ∧
  Cause.code .truncatedFetch = 3 ∧ Cause.code .outputOverflow = 4

/-- The host reads back A, B, C, IP, `len(OUT)` and OUT once the run has ended, halted or trapped, and nothing before
(10_state.md section 8, decisions D17 and D26); the step that ends a run gives back what the run's last instruction left,
for a halt and, by decision D12 (log 10), for a trap (60_exceptions.md section 4 and section 5). -/
def Obligations.EndedRunIsReadBack : Prop :=
  (∀ s : State, s.runState = .halted ∨ s.runState = .trapped →
    s.readBack = some ⟨s.a, s.b, s.c, s.ip, s.out.length, s.out⟩) ∧
  (∀ s : State, s.runState = .running ∨ s.runState = .unlaunched → s.readBack = none) ∧
  (∀ s t : State, s.runState = .running → step s = .next t → t.runState ≠ .running →
    t.readBack = some ⟨s.a, s.b, s.c, s.ip, s.out.length, s.out⟩)
end

