-- ==== Sys2Proof/Laws/Memory.lean ====
section
/-! SUPPORT. The laws of the program memory: reads after writes, the canonical form, and what a loaded tape reads as. -/

namespace Sys2Proof.Machine

/-- A cell whose index is below every index of the rest is the only one a read of it sees. -/
theorem Memory.read_below (m : Memory) (i : Nat) (h : m.all (fun cell => i < cell.1) = true) :
    m.read i = Memory.unlisted := by
  induction m with
  | nil => rfl
  | cons cell rest ih =>
    obtain ⟨j, v⟩ := cell
    simp only [List.all_cons, Bool.and_eq_true, decide_eq_true_eq] at h
    simp only [Memory.read, if_neg (Nat.ne_of_lt h.1)]
    exact ih h.2

/-- A bound below every index stays below when it is lowered. -/
theorem Memory.all_lt_of_le {m : Memory} {i j : Nat} (hij : i ≤ j) (h : m.all (fun cell => j < cell.1) = true) :
    m.all (fun cell => i < cell.1) = true := by
  rw [List.all_eq_true] at h ⊢
  intro cell hc
  have := h cell hc
  simp only [decide_eq_true_eq] at this ⊢
  omega

/-- What the canonical form of a nonempty memory says. -/
theorem Memory.wf_cons (j : Nat) (w : Elem) (rest : Memory) :
    Memory.wf ((j, w) :: rest) = true ↔
      w ≠ Memory.unlisted ∧ rest.all (fun cell => j < cell.1) = true ∧ Memory.wf rest = true := by
  simp only [Memory.wf, Bool.and_eq_true, bne_iff_ne, ne_eq, and_assoc]

/-- A write keeps every index above a bound that the written index is above. -/
theorem Memory.all_lt_write (m : Memory) (i k : Nat) (v : Elem) (hk : k < i)
    (h : m.all (fun cell => k < cell.1) = true) : (m.write i v).all (fun cell => k < cell.1) = true := by
  induction m with
  | nil =>
    simp only [Memory.write]
    split <;> simp [hk]
  | cons cell rest ih =>
    obtain ⟨j, w⟩ := cell
    simp only [List.all_cons, Bool.and_eq_true, decide_eq_true_eq] at h
    have ih := ih h.2
    simp only [Memory.write]
    split_ifs
    · simpa using h
    · simpa using ⟨hk, h.1, by simpa using h.2⟩
    · exact h.2
    · simpa using ⟨hk, by simpa using h.2⟩
    · simpa using ⟨h.1, by simpa using ih⟩

/-- Every write keeps the canonical form. -/
theorem Memory.wf_write (m : Memory) (i : Nat) (v : Elem) (h : m.wf = true) : (m.write i v).wf = true := by
  induction m with
  | nil =>
    simp only [Memory.write]
    split
    · rfl
    · rename_i hv
      simp [Memory.wf, hv]
  | cons cell rest ih =>
    obtain ⟨j, w⟩ := cell
    have hc := (Memory.wf_cons j w rest).1 h
    simp only [Memory.write]
    split_ifs with h1 h2 h3 h4
    · exact h
    · refine (Memory.wf_cons _ _ _).2 ⟨h2, ?_, h⟩
      simp only [List.all_cons, Bool.and_eq_true, decide_eq_true_eq]
      exact ⟨h1, Memory.all_lt_of_le (Nat.le_of_lt h1) hc.2.1⟩
    · exact hc.2.2
    · subst h3
      exact (Memory.wf_cons _ _ _).2 ⟨h4, hc.2.1, hc.2.2⟩
    · exact (Memory.wf_cons _ _ _).2 ⟨hc.1, Memory.all_lt_write rest i j v (by omega) hc.2.1, ih hc.2.2⟩

/-- A read of the written index gives the written element. -/
theorem Memory.read_write_same (m : Memory) (i : Nat) (v : Elem) (h : m.wf = true) : (m.write i v).read i = v := by
  induction m with
  | nil =>
    simp only [Memory.write]
    split
    · rename_i hv
      simp [Memory.read, hv]
    · simp [Memory.read]
  | cons cell rest ih =>
    obtain ⟨j, w⟩ := cell
    have hc := (Memory.wf_cons j w rest).1 h
    simp only [Memory.write]
    split_ifs with h1 h2 h3 h4
    · subst h2
      simp only [Memory.read, if_neg (Nat.ne_of_lt h1)]
      exact Memory.read_below rest i (Memory.all_lt_of_le (Nat.le_of_lt h1) hc.2.1)
    · simp [Memory.read]
    · subst h3
      subst h4
      exact Memory.read_below rest i hc.2.1
    · simp [Memory.read]
    · simp only [Memory.read, if_neg h3]
      exact ih hc.2.2

/-- A write leaves every other index as it was. -/
theorem Memory.read_write_other (m : Memory) (i k : Nat) (v : Elem) (hik : k ≠ i) : (m.write i v).read k = m.read k := by
  induction m with
  | nil =>
    simp only [Memory.write]
    split <;> simp [Memory.read, hik]
  | cons cell rest ih =>
    obtain ⟨j, w⟩ := cell
    simp only [Memory.write]
    split_ifs with h1 h2 h3 h4
    · rfl
    · simp [Memory.read, hik]
    · subst h3
      simp [Memory.read, hik]
    · subst h3
      simp [Memory.read, hik]
    · simp only [Memory.read]
      split
      · rfl
      · exact ih

/-- Two memories in canonical form that read alike are equal. -/
theorem Memory.ext_of_read : ∀ (m n : Memory), m.wf = true → n.wf = true → (∀ i, m.read i = n.read i) → m = n
  | [], [], _, _, _ => rfl
  | [], (j, w) :: rest, _, hn, h => by
    have := h j
    simp only [Memory.read, if_true] at this
    exact absurd this.symm ((Memory.wf_cons j w rest).1 hn).1
  | (j, w) :: rest, [], hm, _, h => by
    have := h j
    simp only [Memory.read, if_true] at this
    exact absurd this ((Memory.wf_cons j w rest).1 hm).1
  | (j, w) :: m, (k, x) :: n, hm, hn, h => by
    have hm' := (Memory.wf_cons j w m).1 hm
    have hn' := (Memory.wf_cons k x n).1 hn
    have hjk : j = k := by
      rcases Nat.lt_trichotomy j k with hlt | heq | hgt
      · have := h j
        simp only [Memory.read, if_true, if_neg (Nat.ne_of_lt hlt)] at this
        rw [Memory.read_below n j (Memory.all_lt_of_le (Nat.le_of_lt hlt) hn'.2.1)] at this
        exact absurd this hm'.1
      · exact heq
      · have := h k
        simp only [Memory.read, if_true, if_neg (Nat.ne_of_lt hgt)] at this
        rw [Memory.read_below m k (Memory.all_lt_of_le (Nat.le_of_lt hgt) hm'.2.1)] at this
        exact absurd this.symm hn'.1
    subst hjk
    have hwx : w = x := by
      have := h j
      simpa only [Memory.read, if_true] using this
    subst hwx
    have : m = n := by
      refine Memory.ext_of_read m n hm'.2.2 hn'.2.2 fun i => ?_
      by_cases hij : i = j
      · subst hij
        rw [Memory.read_below m i hm'.2.1, Memory.read_below n i hn'.2.1]
      · have := h i
        simpa only [Memory.read, if_neg hij] using this
    rw [this]

/-- A tape's cells lie at or above its base. -/
theorem Memory.all_lt_ofTapeFrom (tape : List Elem) (base k : Nat) (hk : k < base) :
    (Memory.ofTapeFrom base tape).all (fun cell => k < cell.1) = true := by
  induction tape generalizing base with
  | nil => rfl
  | cons v rest ih =>
    simp only [Memory.ofTapeFrom]
    split
    · exact ih (base + 1) (by omega)
    · simp only [List.all_cons, Bool.and_eq_true, decide_eq_true_eq]
      exact ⟨hk, ih (base + 1) (by omega)⟩

/-- A tape's memory is in canonical form. -/
theorem Memory.wf_ofTapeFrom (tape : List Elem) (base : Nat) : (Memory.ofTapeFrom base tape).wf = true := by
  induction tape generalizing base with
  | nil => rfl
  | cons v rest ih =>
    simp only [Memory.ofTapeFrom]
    split
    · exact ih (base + 1)
    · rename_i hv
      exact (Memory.wf_cons _ _ _).2 ⟨hv, Memory.all_lt_ofTapeFrom rest (base + 1) base (by omega), ih (base + 1)⟩

/-- A program load leaves the memory in canonical form. -/
theorem Memory.wf_ofTape (tape : List Elem) : (Memory.ofTape tape).wf = true := Memory.wf_ofTapeFrom tape 0

/-- What a tape's memory reads as: the tape from its base on, and the unlisted value elsewhere. -/
theorem Memory.read_ofTapeFrom (tape : List Elem) (base i : Nat) :
    (Memory.ofTapeFrom base tape).read i = if base ≤ i then tape.getD (i - base) Memory.unlisted else Memory.unlisted := by
  induction tape generalizing base with
  | nil => simp [Memory.ofTapeFrom, Memory.read]
  | cons v rest ih =>
    have hstep : ∀ x : Elem, (if i = base then v else if base + 1 ≤ i then rest.getD (i - (base + 1)) x else x)
        = if base ≤ i then (v :: rest).getD (i - base) x else x := by
      intro x
      rcases Nat.lt_trichotomy i base with hlt | heq | hgt
      · rw [if_neg (by omega), if_neg (by omega), if_neg (by omega)]
      · subst heq
        simp
      · rw [if_neg (by omega), if_pos (by omega), if_pos (by omega)]
        obtain ⟨d, rfl⟩ : ∃ d, i = base + 1 + d := ⟨i - (base + 1), by omega⟩
        have : base + 1 + d - base = d + 1 := by omega
        rw [this, Nat.add_sub_cancel_left, List.getD_cons_succ]
    simp only [Memory.ofTapeFrom]
    split
    · rename_i hv
      rw [ih, ← hstep]
      split
      · rw [if_neg (by omega)]
      · split
        · exact hv.symm
        · rfl
    · simp only [Memory.read]
      rw [ih]
      exact hstep _

/-- PROG[i] after a program load: element `i` of the tape (20_memory.md R32). -/
theorem Memory.read_ofTape (tape : List Elem) (i : Nat) :
    (Memory.ofTape tape).read i = tape.getD i Memory.unlisted :=
  (Memory.read_ofTapeFrom tape 0 i).trans (if_pos (Nat.zero_le i))

/-- The reset state's memory is in canonical form. -/
theorem reset_mem_wf : State.reset.mem.wf = true := rfl

end Sys2Proof.Machine
end

