-- ==== Sys2Proof/Laws/State.lean ====
section
/-! SUPPORT. One lemma per field per update of the state, so that no proof unfolds a record update. -/

namespace Sys2Proof.Machine

/-! ### reg -/

@[simp] theorem reg_a (s : State) : s.reg .a = s.a := rfl
@[simp] theorem reg_b (s : State) : s.reg .b = s.b := rfl
@[simp] theorem reg_c (s : State) : s.reg .c = s.c := rfl

/-! ### setReg -/

@[simp] theorem setReg_a_a (s : State) (v : Word) : (s.setReg .a v).a = v := rfl
@[simp] theorem setReg_a_b (s : State) (v : Word) : (s.setReg .a v).b = s.b := rfl
@[simp] theorem setReg_a_c (s : State) (v : Word) : (s.setReg .a v).c = s.c := rfl
@[simp] theorem setReg_b_a (s : State) (v : Word) : (s.setReg .b v).a = s.a := rfl
@[simp] theorem setReg_b_b (s : State) (v : Word) : (s.setReg .b v).b = v := rfl
@[simp] theorem setReg_b_c (s : State) (v : Word) : (s.setReg .b v).c = s.c := rfl
@[simp] theorem setReg_c_a (s : State) (v : Word) : (s.setReg .c v).a = s.a := rfl
@[simp] theorem setReg_c_b (s : State) (v : Word) : (s.setReg .c v).b = s.b := rfl
@[simp] theorem setReg_c_c (s : State) (v : Word) : (s.setReg .c v).c = v := rfl
@[simp] theorem setReg_ip (s : State) (r : Reg) (v : Word) : (s.setReg r v).ip = s.ip := by cases r <;> rfl
@[simp] theorem setReg_out (s : State) (r : Reg) (v : Word) : (s.setReg r v).out = s.out := by cases r <;> rfl
@[simp] theorem setReg_runState (s : State) (r : Reg) (v : Word) : (s.setReg r v).runState = s.runState := by cases r <;> rfl
@[simp] theorem setReg_cause (s : State) (r : Reg) (v : Word) : (s.setReg r v).cause = s.cause := by cases r <;> rfl
@[simp] theorem setReg_mem (s : State) (r : Reg) (v : Word) : (s.setReg r v).mem = s.mem := by cases r <;> rfl
@[simp] theorem setReg_plen (s : State) (r : Reg) (v : Word) : (s.setReg r v).plen = s.plen := by cases r <;> rfl
@[simp] theorem setReg_outCap (s : State) (r : Reg) (v : Word) : (s.setReg r v).outCap = s.outCap := by cases r <;> rfl

/-- Reading a register after a write: the written value there, the old value elsewhere (10_state.md R11). -/
theorem setReg_reg (s : State) (r r' : Reg) (v : Word) :
    (s.setReg r v).reg r' = if r' = r then v else s.reg r' := by
  cases r <;> cases r' <;> rfl

@[simp] theorem setReg_reg_same (s : State) (r : Reg) (v : Word) : (s.setReg r v).reg r = v := by
  simp [setReg_reg]

/-! ### advance -/

@[simp] theorem advance_a (s : State) : s.advance.a = s.a := rfl
@[simp] theorem advance_b (s : State) : s.advance.b = s.b := rfl
@[simp] theorem advance_c (s : State) : s.advance.c = s.c := rfl
@[simp] theorem advance_ip (s : State) : s.advance.ip = s.ip + 2 := rfl
@[simp] theorem advance_out (s : State) : s.advance.out = s.out := rfl
@[simp] theorem advance_runState (s : State) : s.advance.runState = s.runState := rfl
@[simp] theorem advance_cause (s : State) : s.advance.cause = s.cause := rfl
@[simp] theorem advance_mem (s : State) : s.advance.mem = s.mem := rfl
@[simp] theorem advance_plen (s : State) : s.advance.plen = s.plen := rfl
@[simp] theorem advance_outCap (s : State) : s.advance.outCap = s.outCap := rfl
@[simp] theorem advance_reg (s : State) (r : Reg) : s.advance.reg r = s.reg r := by cases r <;> rfl

/-! ### jumpTo -/

@[simp] theorem jumpTo_a (s : State) (target : Nat) : (s.jumpTo target).a = s.a := rfl
@[simp] theorem jumpTo_b (s : State) (target : Nat) : (s.jumpTo target).b = s.b := rfl
@[simp] theorem jumpTo_c (s : State) (target : Nat) : (s.jumpTo target).c = s.c := rfl
@[simp] theorem jumpTo_ip (s : State) (target : Nat) : (s.jumpTo target).ip = target := rfl
@[simp] theorem jumpTo_out (s : State) (target : Nat) : (s.jumpTo target).out = s.out := rfl
@[simp] theorem jumpTo_runState (s : State) (target : Nat) : (s.jumpTo target).runState = s.runState := rfl
@[simp] theorem jumpTo_cause (s : State) (target : Nat) : (s.jumpTo target).cause = s.cause := rfl
@[simp] theorem jumpTo_mem (s : State) (target : Nat) : (s.jumpTo target).mem = s.mem := rfl
@[simp] theorem jumpTo_plen (s : State) (target : Nat) : (s.jumpTo target).plen = s.plen := rfl
@[simp] theorem jumpTo_outCap (s : State) (target : Nat) : (s.jumpTo target).outCap = s.outCap := rfl
@[simp] theorem jumpTo_reg (s : State) (target : Nat) (r : Reg) : (s.jumpTo target).reg r = s.reg r := by cases r <;> rfl

/-! ### pushOut -/

@[simp] theorem pushOut_a (s : State) (v : Elem) : (s.pushOut v).a = s.a := rfl
@[simp] theorem pushOut_b (s : State) (v : Elem) : (s.pushOut v).b = s.b := rfl
@[simp] theorem pushOut_c (s : State) (v : Elem) : (s.pushOut v).c = s.c := rfl
@[simp] theorem pushOut_ip (s : State) (v : Elem) : (s.pushOut v).ip = s.ip := rfl
@[simp] theorem pushOut_out (s : State) (v : Elem) : (s.pushOut v).out = s.out ++ [v] := rfl
@[simp] theorem pushOut_runState (s : State) (v : Elem) : (s.pushOut v).runState = s.runState := rfl
@[simp] theorem pushOut_cause (s : State) (v : Elem) : (s.pushOut v).cause = s.cause := rfl
@[simp] theorem pushOut_mem (s : State) (v : Elem) : (s.pushOut v).mem = s.mem := rfl
@[simp] theorem pushOut_plen (s : State) (v : Elem) : (s.pushOut v).plen = s.plen := rfl
@[simp] theorem pushOut_outCap (s : State) (v : Elem) : (s.pushOut v).outCap = s.outCap := rfl
@[simp] theorem pushOut_reg (s : State) (v : Elem) (r : Reg) : (s.pushOut v).reg r = s.reg r := by cases r <;> rfl

/-! ### halt -/

@[simp] theorem halt_a (s : State) : s.halt.a = s.a := rfl
@[simp] theorem halt_b (s : State) : s.halt.b = s.b := rfl
@[simp] theorem halt_c (s : State) : s.halt.c = s.c := rfl
@[simp] theorem halt_ip (s : State) : s.halt.ip = s.ip := rfl
@[simp] theorem halt_out (s : State) : s.halt.out = s.out := rfl
@[simp] theorem halt_runState (s : State) : s.halt.runState = .halted := rfl
@[simp] theorem halt_cause (s : State) : s.halt.cause = s.cause := rfl
@[simp] theorem halt_mem (s : State) : s.halt.mem = s.mem := rfl
@[simp] theorem halt_plen (s : State) : s.halt.plen = s.plen := rfl
@[simp] theorem halt_outCap (s : State) : s.halt.outCap = s.outCap := rfl
@[simp] theorem halt_reg (s : State) (r : Reg) : s.halt.reg r = s.reg r := by cases r <;> rfl

/-! ### trap -/

@[simp] theorem trap_a (s : State) (code : Cause) : (s.trap code).a = s.a := rfl
@[simp] theorem trap_b (s : State) (code : Cause) : (s.trap code).b = s.b := rfl
@[simp] theorem trap_c (s : State) (code : Cause) : (s.trap code).c = s.c := rfl
@[simp] theorem trap_ip (s : State) (code : Cause) : (s.trap code).ip = s.ip := rfl
@[simp] theorem trap_out (s : State) (code : Cause) : (s.trap code).out = s.out := rfl
@[simp] theorem trap_runState (s : State) (code : Cause) : (s.trap code).runState = .trapped := rfl
@[simp] theorem trap_cause (s : State) (code : Cause) : (s.trap code).cause = code := rfl
@[simp] theorem trap_mem (s : State) (code : Cause) : (s.trap code).mem = s.mem := rfl
@[simp] theorem trap_plen (s : State) (code : Cause) : (s.trap code).plen = s.plen := rfl
@[simp] theorem trap_outCap (s : State) (code : Cause) : (s.trap code).outCap = s.outCap := rfl
@[simp] theorem trap_reg (s : State) (code : Cause) (r : Reg) : (s.trap code).reg r = s.reg r := by cases r <;> rfl

/-! ### loadTape -/

@[simp] theorem loadTape_a (s : State) (tape : List Elem) : (s.loadTape tape).a = s.a := rfl
@[simp] theorem loadTape_b (s : State) (tape : List Elem) : (s.loadTape tape).b = s.b := rfl
@[simp] theorem loadTape_c (s : State) (tape : List Elem) : (s.loadTape tape).c = s.c := rfl
@[simp] theorem loadTape_ip (s : State) (tape : List Elem) : (s.loadTape tape).ip = s.ip := rfl
@[simp] theorem loadTape_out (s : State) (tape : List Elem) : (s.loadTape tape).out = s.out := rfl
@[simp] theorem loadTape_runState (s : State) (tape : List Elem) : (s.loadTape tape).runState = s.runState := rfl
@[simp] theorem loadTape_cause (s : State) (tape : List Elem) : (s.loadTape tape).cause = s.cause := rfl
@[simp] theorem loadTape_mem (s : State) (tape : List Elem) : (s.loadTape tape).mem = Memory.ofTape tape := rfl
@[simp] theorem loadTape_plen (s : State) (tape : List Elem) : (s.loadTape tape).plen = tape.length := rfl
@[simp] theorem loadTape_outCap (s : State) (tape : List Elem) : (s.loadTape tape).outCap = s.outCap := rfl
@[simp] theorem loadTape_reg (s : State) (tape : List Elem) (r : Reg) : (s.loadTape tape).reg r = s.reg r := by cases r <;> rfl

/-! ### launch -/

@[simp] theorem launch_a (s : State) (a b c : Word) : (s.launch a b c).a = a := rfl
@[simp] theorem launch_b (s : State) (a b c : Word) : (s.launch a b c).b = b := rfl
@[simp] theorem launch_c (s : State) (a b c : Word) : (s.launch a b c).c = c := rfl
@[simp] theorem launch_ip (s : State) (a b c : Word) : (s.launch a b c).ip = 0 := rfl
@[simp] theorem launch_out (s : State) (a b c : Word) : (s.launch a b c).out = [] := rfl
@[simp] theorem launch_runState (s : State) (a b c : Word) : (s.launch a b c).runState = .running := rfl
@[simp] theorem launch_cause (s : State) (a b c : Word) : (s.launch a b c).cause = .none := rfl
@[simp] theorem launch_mem (s : State) (a b c : Word) : (s.launch a b c).mem = s.mem := rfl
@[simp] theorem launch_plen (s : State) (a b c : Word) : (s.launch a b c).plen = s.plen := rfl
@[simp] theorem launch_outCap (s : State) (a b c : Word) : (s.launch a b c).outCap = s.outCap := rfl

/-! ### storeAtIp -/

@[simp] theorem storeAtIp_a (s : State) (w : Nat) : (storeAtIp s w).a = s.a := rfl
@[simp] theorem storeAtIp_b (s : State) (w : Nat) : (storeAtIp s w).b = s.b := rfl
@[simp] theorem storeAtIp_c (s : State) (w : Nat) : (storeAtIp s w).c = s.c := rfl
@[simp] theorem storeAtIp_ip (s : State) (w : Nat) : (storeAtIp s w).ip = s.ip := rfl
@[simp] theorem storeAtIp_out (s : State) (w : Nat) : (storeAtIp s w).out = s.out := rfl
@[simp] theorem storeAtIp_runState (s : State) (w : Nat) : (storeAtIp s w).runState = .running := rfl
@[simp] theorem storeAtIp_cause (s : State) (w : Nat) : (storeAtIp s w).cause = s.cause := rfl
@[simp] theorem storeAtIp_mem (s : State) (w : Nat) : (storeAtIp s w).mem =
    (s.mem.write s.ip (BitVec.ofNat 3 (w / 8))).write (s.ip + 1) (BitVec.ofNat 3 (w % 8)) := rfl
@[simp] theorem storeAtIp_plen (s : State) (w : Nat) : (storeAtIp s w).plen = max s.plen (s.ip + 2) := rfl
@[simp] theorem storeAtIp_outCap (s : State) (w : Nat) : (storeAtIp s w).outCap = s.outCap := rfl

@[simp] theorem isRunning_iff (s : State) : s.isRunning = true ↔ s.runState = .running := by
  simp [State.isRunning]

end Sys2Proof.Machine
end

