-- ==== Sys2Proof/Laws/Launch.lean ====
section
/-! SUPPORT. What a move of the host can do, and what the host reads back. -/

namespace Sys2Proof.Machine

/-- A host move that answers a state is a load of 3-bit numbers that fit the program memory, outside a run, or a launch
with three values below 2^64. -/
theorem hostMove_cases {m : HostMove} {s t : State} (h : hostMove m s = .next t) :
    (∃ tokens, m = .loadProgram tokens ∧ s.runState ≠ .running ∧ (∀ x ∈ tokens, x ≤ 7) ∧
      tokens.length ≤ Config.plenMax ∧ t = s.loadTape (tokens.map (BitVec.ofNat 3))) ∨
    (∃ a b c, m = .launch a b c ∧ a < 2 ^ 64 ∧ b < 2 ^ 64 ∧ c < 2 ^ 64 ∧
      t = s.launch (BitVec.ofNat 64 a) (BitVec.ofNat 64 b) (BitVec.ofNat 64 c)) := by
  cases m with
  | loadProgram tokens =>
    simp only [hostMove] at h
    split_ifs at h with hr hx hl
    cases h
    refine .inl ⟨tokens, rfl, hr, fun x hmem => ?_, Nat.not_lt.1 hl, rfl⟩
    by_contra hgt
    exact hx (List.any_eq_true.2 ⟨x, hmem, decide_eq_true (Nat.not_le.1 hgt)⟩)
  | launch a b c =>
    simp only [hostMove] at h
    split_ifs at h with hv
    cases h
    exact .inr ⟨a, b, c, rfl, hv.1, hv.2.1, hv.2.2, rfl⟩

/-- The read-back is open exactly when the run has ended, and then carries the six items as they stand
(10_state.md R23). -/
theorem readBack_eq_some {s : State} {r : ReadBack} : s.readBack = some r ↔
    (s.runState = .halted ∨ s.runState = .trapped) ∧ r = ⟨s.a, s.b, s.c, s.ip, s.out.length, s.out⟩ := by
  cases h : s.runState <;> simp [State.readBack, h, eq_comm]

@[simp] theorem readBack_halt (s : State) :
    s.halt.readBack = some ⟨s.a, s.b, s.c, s.ip, s.out.length, s.out⟩ := rfl
@[simp] theorem readBack_trap (s : State) (code : Cause) :
    (s.trap code).readBack = some ⟨s.a, s.b, s.c, s.ip, s.out.length, s.out⟩ := rfl
@[simp] theorem readBack_launch (s : State) (a b c : Word) : (s.launch a b c).readBack = none := rfl

/-- The program that a load stores is the tape it was given (20_memory.md R32). -/
theorem tape_loadTape (s : State) (tape : List Elem) : (s.loadTape tape).tape = tape := by
  apply List.ext_getElem
  · simp [State.tape]
  · intro i h1 h2
    simp [State.tape, Memory.read_ofTape, h2]

end Sys2Proof.Machine
end

