-- ==== Sys2Proof/Laws/Ops.lean ====
section
/-! SUPPORT. For each shared operation, once, everything it can do. -/

namespace Sys2Proof.Machine

/-! ## Arithmetic and operands -/

/-- The shift is the floor of a division by a power of two, for every amount (40_shift_divide.md R65). -/
theorem shr_toNat (a n : Word) : (shr a n).toNat = a.toNat / 2 ^ n.toNat := by
  unfold shr
  split
  · rw [BitVec.toNat_ushiftRight, Nat.shiftRight_eq_div_pow]
  · rename_i h
    have hpow : 2 ^ 64 ≤ 2 ^ n.toNat := Nat.pow_le_pow_right (by omega) (by omega)
    rw [Nat.div_eq_of_lt (Nat.lt_of_lt_of_le a.isLt hpow)]
    rfl

/-- `and 7` is the remainder by 8 (41_bitwise.md R70). -/
theorem andSeven_toNat (v : Word) : (andSeven v).toNat = v.toNat % 8 := by
  have : (7 : Word).toNat = 2 ^ 3 - 1 := rfl
  rw [andSeven, BitVec.toNat_and, this, Nat.and_two_pow_sub_one_eq_mod]

/-- The low element is the remainder by 8 (43_output.md R80). -/
theorem lowElem_toNat (v : Word) : (lowElem v).toNat = v.toNat % 8 := by
  simp [lowElem, BitVec.extractLsb'_toNat]

/-- A literal keeps the element's number (30_encoding.md R48). -/
theorem lit_toNat (operand : Elem) : (lit operand).toNat = operand.toNat := by
  have := operand.isLt
  simp only [lit, BitVec.toNat_setWidth]
  omega

/-- The eight cases of an element. -/
theorem elem_cases (o : Elem) : o = 0 ∨ o = 1 ∨ o = 2 ∨ o = 3 ∨ o = 4 ∨ o = 5 ∨ o = 6 ∨ o = 7 := by
  revert o; decide

/-- A combo operand has a value exactly when it is not 7. -/
theorem combo_eq_none_iff (operand : Elem) (s : State) : combo operand s = none ↔ operand = 7 := by
  rcases elem_cases operand with rfl | rfl | rfl | rfl | rfl | rfl | rfl | rfl <;> simp [combo]

/-- A combo operand other than 7 has a value. -/
theorem combo_some_of_ne (operand : Elem) (s : State) (h : operand ≠ 7) : ∃ v, combo operand s = some v :=
  Option.ne_none_iff_exists'.1 (fun hn => h ((combo_eq_none_iff operand s).1 hn))

/-- Resolving a combo operand goes on with its value. -/
theorem withCombo_some {operand : Elem} {s : State} {v : Word} (h : combo operand s = some v) (go : Word → Outcome) :
    withCombo operand s go = go v := by
  simp [withCombo, h]

/-- Resolving operand 7 takes the InvalidOperand trap. -/
theorem withCombo_seven (s : State) (go : Word → Outcome) :
    withCombo 7 s go = .next (s.trap .invalidOperand) := rfl

/-- What resolving a combo operand can do. -/
theorem withCombo_cases (operand : Elem) (s : State) (go : Word → Outcome) :
    (operand = 7 ∧ withCombo operand s go = .next (s.trap .invalidOperand)) ∨
      (operand ≠ 7 ∧ ∃ v, combo operand s = some v ∧ withCombo operand s go = go v) := by
  by_cases h : operand = 7
  · subst h
    exact .inl ⟨rfl, rfl⟩
  · obtain ⟨v, hv⟩ := combo_some_of_ne operand s h
    exact .inr ⟨h, v, hv, withCombo_some hv go⟩

@[simp] theorem raise_eq (code : Cause) (s : State) : raise code s = .next (s.trap code) := rfl

/-! ## What an instruction can do -/

/-- The fetched word is one of the five reserved ones (30_encoding.md R51), as syntax. -/
def isReserved (i : Instr) : Bool :=
  match i with
  | .adv7 => true
  | .bst7 => true
  | .out7 => true
  | .bdv7 => true
  | .cdv7 => true
  | .adv o => o == 7
  | .bst o => o == 7
  | .out o => o == 7
  | .bdv o => o == 7
  | .cdv o => o == 7
  | .bxl _ => false
  | .jnz _ => false
  | .bxc _ => false

/-- Every instruction answers a next state: it writes its destination register and advances, it jumps, it advances, it appends to
OUT and advances, or it takes one of two traps. -/
theorem exec_cases (i : Instr) (s : State) :
    (isReserved i = false ∧ (∀ o, i ≠ .jnz o) ∧ ∃ r v, instrWrites i r = true ∧
        exec i s = .next (s.setReg r v).advance) ∨
      (isReserved i = false ∧ ∃ o, i = .jnz o ∧ s.a ≠ 0 ∧ exec i s = .next (s.jumpTo o.toNat)) ∨
      (isReserved i = false ∧ ∃ o, i = .jnz o ∧ s.a = 0 ∧ exec i s = .next s.advance) ∨
      (isReserved i = false ∧ ∃ o v, i = .out o ∧ combo o s = some v ∧ s.outFull = false ∧
        exec i s = .next (s.pushOut (lowElem v)).advance) ∨
      (isReserved i = false ∧ ∃ o, i = .out o ∧ s.outFull = true ∧ exec i s = .next (s.trap .outputOverflow)) ∨
      (isReserved i = true ∧ exec i s = .next (s.trap .invalidOperand)) := by
  cases i with
  | adv o =>
    rcases withCombo_cases o s (fun v => .next (s.setReg .a (shr (s.reg .a) v)).advance) with ⟨h, e⟩ | ⟨h, v, -, e⟩
    · exact .inr (.inr (.inr (.inr (.inr ⟨beq_iff_eq.2 h, e⟩))))
    · exact .inl ⟨beq_eq_false_iff_ne.2 h, nofun, _, _, rfl, e⟩
  | bdv o =>
    rcases withCombo_cases o s (fun v => .next (s.setReg .b (shr (s.reg .a) v)).advance) with ⟨h, e⟩ | ⟨h, v, -, e⟩
    · exact .inr (.inr (.inr (.inr (.inr ⟨beq_iff_eq.2 h, e⟩))))
    · exact .inl ⟨beq_eq_false_iff_ne.2 h, nofun, _, _, rfl, e⟩
  | cdv o =>
    rcases withCombo_cases o s (fun v => .next (s.setReg .c (shr (s.reg .a) v)).advance) with ⟨h, e⟩ | ⟨h, v, -, e⟩
    · exact .inr (.inr (.inr (.inr (.inr ⟨beq_iff_eq.2 h, e⟩))))
    · exact .inl ⟨beq_eq_false_iff_ne.2 h, nofun, _, _, rfl, e⟩
  | bst o =>
    rcases withCombo_cases o s (fun v => .next (s.setReg .b (andSeven v)).advance) with ⟨h, e⟩ | ⟨h, v, -, e⟩
    · exact .inr (.inr (.inr (.inr (.inr ⟨beq_iff_eq.2 h, e⟩))))
    · exact .inl ⟨beq_eq_false_iff_ne.2 h, nofun, _, _, rfl, e⟩
  | bxl o => exact .inl ⟨rfl, nofun, .b, _, rfl, rfl⟩
  | bxc o => exact .inl ⟨rfl, nofun, .b, _, rfl, rfl⟩
  | jnz o =>
    by_cases h : s.a = 0
    · exact .inr (.inr (.inl ⟨rfl, o, rfl, h, by simp [exec, execJnz, jumpTaken, h]⟩))
    · refine .inr (.inl ⟨rfl, o, rfl, h, ?_⟩)
      have ht : jumpTaken s = true := bne_iff_ne.2 h
      simp [exec, execJnz, ht, lit_toNat]
  | out o =>
    rcases withCombo_cases o s (fun v => if s.outFull then raise .outputOverflow s
      else .next (s.pushOut (lowElem v)).advance) with ⟨h, e⟩ | ⟨h, v, hv, e⟩
    · exact .inr (.inr (.inr (.inr (.inr ⟨beq_iff_eq.2 h, e⟩))))
    · cases hf : s.outFull with
      | false =>
        refine .inr (.inr (.inr (.inl ⟨beq_eq_false_iff_ne.2 h, o, v, rfl, hv, rfl, ?_⟩)))
        exact e.trans (by simp [hf])
      | true =>
        refine .inr (.inr (.inr (.inr (.inl ⟨beq_eq_false_iff_ne.2 h, o, rfl, rfl, ?_⟩))))
        exact e.trans (by simp [hf])
  | adv7 => exact .inr (.inr (.inr (.inr (.inr ⟨rfl, rfl⟩))))
  | bst7 => exact .inr (.inr (.inr (.inr (.inr ⟨rfl, rfl⟩))))
  | out7 => exact .inr (.inr (.inr (.inr (.inr ⟨rfl, rfl⟩))))
  | bdv7 => exact .inr (.inr (.inr (.inr (.inr ⟨rfl, rfl⟩))))
  | cdv7 => exact .inr (.inr (.inr (.inr (.inr ⟨rfl, rfl⟩))))

/-! ## Fetch and step -/

/-- The three findings of a fetch (30_encoding.md R55). -/
theorem fetch_cases (s : State) :
    (s.plen ≤ s.ip ∧ fetch s = .atEnd) ∨
      (s.ip + 1 = s.plen ∧ fetch s = .truncated) ∨
      (s.ip + 2 ≤ s.plen ∧ fetch s = .pair (s.mem.read s.ip) (s.mem.read (s.ip + 1))) := by
  unfold fetch
  split
  · exact .inl ⟨‹_›, rfl⟩
  · split
    · exact .inr (.inl ⟨‹_›, rfl⟩)
    · exact .inr (.inr ⟨by omega, rfl⟩)

/-- Two 3-bit elements always decode (30_encoding.md R54). -/
theorem decodePair_elems (opcode operand : Elem) :
    decodePair opcode.toNat operand.toNat = .ok (decodeElems opcode operand) := by
  have h1 := opcode.isLt
  have h2 := operand.isLt
  unfold decodePair
  rw [if_neg (by omega), if_neg (by omega)]
  simp

/-- A step when the core is not RUNNING. -/
theorem step_idle {s : State} (h : s.runState ≠ .running) : step s = idle s := by
  simp [step, State.isRunning, h]

/-- What a step of a RUNNING core can do: halt, take TruncatedFetch, or run the fetched instruction
(30_encoding.md R57). -/
theorem step_running_cases {s : State} (h : s.runState = .running) :
    (s.plen ≤ s.ip ∧ step s = .next s.halt) ∨
      (s.ip + 1 = s.plen ∧ step s = .next (s.trap .truncatedFetch)) ∨
      (s.ip + 2 ≤ s.plen ∧ step s = exec (decodeElems (s.mem.read s.ip) (s.mem.read (s.ip + 1))) s) := by
  have hr : s.isRunning = true := (isRunning_iff s).2 h
  rcases fetch_cases s with ⟨hb, hf⟩ | ⟨hb, hf⟩ | ⟨hb, hf⟩
  · exact .inl ⟨hb, by simp [step, hr, hf]⟩
  · exact .inr (.inl ⟨hb, by simp [step, hr, hf]⟩)
  · exact .inr (.inr ⟨hb, by simp [step, hr, hf, decodePair_elems]⟩)

end Sys2Proof.Machine
end

