-- ==== Sys2Proof/Laws/PerInstr.lean ====
section
/-! SUPPORT. The families of facts that hold of every instruction, one lemma per constructor. -/

namespace Sys2Proof.Laws

/-- The encoding of an instruction is one opcode and one operand of 3 bits each, and its packed word has 6 bits and
unpacks to the same two elements (30_encoding.md R45, R46). -/
def EncodingShape.Statement (i : Instr) : Prop :=
  (encode i).length = 2 ∧ (∀ x ∈ encode i, x ≤ 7) ∧ encodeWord i < 64 ∧ unpackWord (encodeWord i) = encode i

/-- The shape, for any opcode and operand. -/
theorem encodingShape_of_elems (i : Instr) : EncodingShape.Statement i := by
  have h1 := i.opcode.isLt
  have h2 := i.operand.isLt
  refine ⟨rfl, ?_, ?_, ?_⟩
  · intro x hx
    simp only [encode, List.mem_cons, List.not_mem_nil, or_false] at hx
    omega
  · unfold encodeWord
    omega
  · simp only [unpackWord, encodeWord, encode, List.cons.injEq, and_true]
    omega

theorem EncodingShape.adv (operand : Elem) : EncodingShape.Statement (.adv operand) := encodingShape_of_elems _
theorem EncodingShape.bxl (operand : Elem) : EncodingShape.Statement (.bxl operand) := encodingShape_of_elems _
theorem EncodingShape.bst (operand : Elem) : EncodingShape.Statement (.bst operand) := encodingShape_of_elems _
theorem EncodingShape.jnz (operand : Elem) : EncodingShape.Statement (.jnz operand) := encodingShape_of_elems _
theorem EncodingShape.bxc (operand : Elem) : EncodingShape.Statement (.bxc operand) := encodingShape_of_elems _
theorem EncodingShape.out (operand : Elem) : EncodingShape.Statement (.out operand) := encodingShape_of_elems _
theorem EncodingShape.bdv (operand : Elem) : EncodingShape.Statement (.bdv operand) := encodingShape_of_elems _
theorem EncodingShape.cdv (operand : Elem) : EncodingShape.Statement (.cdv operand) := encodingShape_of_elems _
theorem EncodingShape.adv7 : EncodingShape.Statement .adv7 := encodingShape_of_elems _
theorem EncodingShape.bst7 : EncodingShape.Statement .bst7 := encodingShape_of_elems _
theorem EncodingShape.out7 : EncodingShape.Statement .out7 := encodingShape_of_elems _
theorem EncodingShape.bdv7 : EncodingShape.Statement .bdv7 := encodingShape_of_elems _
theorem EncodingShape.cdv7 : EncodingShape.Statement .cdv7 := encodingShape_of_elems _

end Sys2Proof.Laws
end

