-- ==== Sys2Proof/Laws/Run.lean ====
section
/-! SUPPORT. Runs of the core: one step unfolded, and one induction for all invariants. -/

namespace Sys2Proof.Machine

/-- A run of no steps. -/
@[simp] theorem run_zero (s : State) : Sys2Proof.core.run 0 s = .next s := rfl

/-- A run whose first step answers a next state goes on from it. -/
theorem run_succ_of_next {k : Nat} {s u : State} (h : step s = .next u) :
    Sys2Proof.core.run (k + 1) s = Sys2Proof.core.run k u := by
  have hstep : Sys2Proof.core.step s = .next u := h
  simp only [Host.Core.run, hstep]

/-- A run that answers a state had a first step that answers one. -/
theorem run_succ_inv {k : Nat} {s t : State} (h : Sys2Proof.core.run (k + 1) s = .next t) :
    ∃ u, step s = .next u ∧ Sys2Proof.core.run k u = .next t := by
  cases hs : step s with
  | next u => exact ⟨u, rfl, (run_succ_of_next hs).symm.trans h⟩
  | fault e =>
    have hstep : Sys2Proof.core.step s = .fault e := hs
    simp [Host.Core.run, hstep] at h
  | refused e =>
    have hstep : Sys2Proof.core.step s = .refused e := hs
    simp [Host.Core.run, hstep] at h

/-- What every step keeps, every run keeps. -/
theorem run_keeps {P : State → Prop} (hstep : ∀ s t, P s → step s = .next t → P t) :
    ∀ (k : Nat) (s t : State), P s → Sys2Proof.core.run k s = .next t → P t
  | 0, s, t, hp, h => by
    cases h
    exact hp
  | k + 1, s, t, hp, h => by
    obtain ⟨u, hu, hk⟩ := run_succ_inv h
    exact run_keeps hstep k u t (hstep s u hp hu) hk

end Sys2Proof.Machine
end

