-- ==== Sys2Proof/Laws/Step.lean ====
section
/-! SUPPORT. What a step can do, said over the two fetched elements. -/

namespace Sys2Proof.Machine

/-- Decoding two elements gives a reserved row exactly for a combo-class opcode with operand 7
(30_encoding.md R51). -/
theorem isReserved_decodeElems_iff : ∀ opcode operand : Elem,
    isReserved (decodeElems opcode operand) = true ↔ (comboOpcode opcode = true ∧ operand = 7) := by decide

/-- Only opcode 5 decodes to out. -/
theorem decodeElems_eq_out : ∀ opcode operand o : Elem, decodeElems opcode operand = .out o →
    opcode = 5 ∧ operand = o := by decide

/-- Only opcode 3 decodes to jnz. -/
theorem decodeElems_eq_jnz : ∀ opcode operand o : Elem, decodeElems opcode operand = .jnz o →
    opcode = 3 ∧ operand = o := by decide

/-- OUT is full when its length is OUT_CAP (43_output.md R80). -/
theorem outFull_iff (s : State) : s.outFull = true ↔ s.outCap = some s.out.length := by simp [State.outFull]

/-- Everything a step of a RUNNING core can do, with the condition on IP and the fetched elements under which it does
it (30_encoding.md R57). -/
theorem step_elem_cases {s : State} (hr : s.runState = .running) :
    (s.plen ≤ s.ip ∧ step s = .next s.halt) ∨
    (s.ip + 1 = s.plen ∧ step s = .next (s.trap .truncatedFetch)) ∨
    (s.ip + 2 ≤ s.plen ∧ comboOpcode (s.mem.read s.ip) = true ∧ s.mem.read (s.ip + 1) = 7 ∧
      step s = .next (s.trap .invalidOperand)) ∨
    (s.ip + 2 ≤ s.plen ∧ ¬ (comboOpcode (s.mem.read s.ip) = true ∧ s.mem.read (s.ip + 1) = 7) ∧
      ((∃ r v, step s = .next (s.setReg r v).advance) ∨
       (s.mem.read s.ip = 3 ∧ s.a ≠ 0 ∧ step s = .next (s.jumpTo (s.mem.read (s.ip + 1)).toNat)) ∨
       (s.mem.read s.ip = 3 ∧ s.a = 0 ∧ step s = .next s.advance) ∨
       (s.mem.read s.ip = 5 ∧ s.outFull = false ∧ ∃ v, combo (s.mem.read (s.ip + 1)) s = some v ∧
          step s = .next (s.pushOut (lowElem v)).advance) ∨
       (s.mem.read s.ip = 5 ∧ s.outFull = true ∧ step s = .next (s.trap .outputOverflow)))) := by
  rcases step_running_cases hr with ⟨h, e⟩ | ⟨h, e⟩ | ⟨h, e⟩
  · exact .inl ⟨h, e⟩
  · exact .inr (.inl ⟨h, e⟩)
  · have hres := isReserved_decodeElems_iff (s.mem.read s.ip) (s.mem.read (s.ip + 1))
    have plain : isReserved (decodeElems (s.mem.read s.ip) (s.mem.read (s.ip + 1))) = false →
        ¬ (comboOpcode (s.mem.read s.ip) = true ∧ s.mem.read (s.ip + 1) = 7) := by
      intro hn hc
      rw [hres.2 hc] at hn
      cases hn
    rw [e]
    rcases exec_cases (decodeElems (s.mem.read s.ip) (s.mem.read (s.ip + 1))) s with
      ⟨n, -, r, v, -, x⟩ | ⟨n, o, d, ha, x⟩ | ⟨n, o, d, ha, x⟩ | ⟨n, o, v, d, hc, hf, x⟩ | ⟨n, o, d, hf, x⟩ | ⟨n, x⟩
    · exact .inr (.inr (.inr ⟨h, plain n, .inl ⟨r, v, x⟩⟩))
    · obtain ⟨h3, ho⟩ := decodeElems_eq_jnz _ _ _ d
      exact .inr (.inr (.inr ⟨h, plain n, .inr (.inl ⟨h3, ha, by rw [x, ho]⟩)⟩))
    · obtain ⟨h3, -⟩ := decodeElems_eq_jnz _ _ _ d
      exact .inr (.inr (.inr ⟨h, plain n, .inr (.inr (.inl ⟨h3, ha, x⟩))⟩))
    · obtain ⟨h5, ho⟩ := decodeElems_eq_out _ _ _ d
      exact .inr (.inr (.inr ⟨h, plain n, .inr (.inr (.inr (.inl ⟨h5, hf, v, by rw [ho]; exact hc, x⟩)))⟩))
    · obtain ⟨h5, -⟩ := decodeElems_eq_out _ _ _ d
      exact .inr (.inr (.inr ⟨h, plain n, .inr (.inr (.inr (.inr ⟨h5, hf, x⟩)))⟩))
    · obtain ⟨hc, h7⟩ := hres.1 n
      exact .inr (.inr (.inl ⟨h, hc, h7, x⟩))

/-- A step of a core that is not RUNNING answers a next state only in HALTED, and then the same state. -/
theorem step_idle_next {s t : State} (hr : s.runState ≠ .running) (h : step s = .next t) :
    s.runState = .halted ∧ t = s := by
  rw [step_idle hr] at h
  cases hs : s.runState with
  | running => exact absurd hs hr
  | halted =>
    simp only [idle, hs] at h
    cases h
    exact ⟨rfl, rfl⟩
  | trapped => simp [idle, hs] at h
  | unlaunched => simp [idle, hs] at h

end Sys2Proof.Machine
end

