-- ==== Sys2Proof/Tests/Slice0.lean ====
section
/-! SUPPORT. Tests. Expected values come from 95_test_vectors.md or are worked out by hand from the rule named; then
one witness for each hypothesis of a statement. -/

open Sys2Proof Sys2Proof.Machine

namespace Sys2Proof.Tests

/-- A launched core over a tape, at IP 0 with an empty unbounded OUT. -/
def start (tape : List Elem) (a b c : Word) : State := (State.reset.loadTape tape).launch a b c

/-- The outcome is this next state. -/
def nextIs (o : Outcome) (t : State) : Bool :=
  match o with
  | .next s => s == t
  | .fault _ => false
  | .refused _ => false

/-- The outcome is this fault. -/
def faultIs (o : Outcome) (e : Fault) : Bool :=
  match o with
  | .next _ => false
  | .fault f => f == e
  | .refused _ => false

/-- The outcome is this refusal. -/
def refusalIs (o : Outcome) (e : Refusal) : Bool :=
  match o with
  | .next _ => false
  | .fault _ => false
  | .refused r => r == e

/-- All ones, the vectors' M. -/
def allOnes : Word := 0xFFFFFFFFFFFFFFFF

/-! ## Well-formedness: each check refuses its ill-formed term (30_encoding.md R51) -/

theorem test_wf_refuses_adv_seven : Instr.wellFormed (.adv 7) = false := by decide
theorem test_wf_refuses_bst_seven : Instr.wellFormed (.bst 7) = false := by decide
theorem test_wf_refuses_out_seven : Instr.wellFormed (.out 7) = false := by decide
theorem test_wf_refuses_bdv_seven : Instr.wellFormed (.bdv 7) = false := by decide
theorem test_wf_refuses_cdv_seven : Instr.wellFormed (.cdv 7) = false := by decide
theorem test_wf_accepts_literal_seven :
    (Instr.wellFormed (.bxl 7) && Instr.wellFormed (.jnz 7) && Instr.wellFormed (.bxc 7)) = true := by decide

/-! ## Decoding: one word for every constructor, written out from 30_encoding.md R50 and R51 -/

theorem test_decode_adv : decodeTableWord 8 0b000110 = some (.adv 6) := by decide
theorem test_decode_bxl : decodeTableWord 8 0b001101 = some (.bxl 5) := by decide
theorem test_decode_bst : decodeTableWord 8 0b010110 = some (.bst 6) := by decide
theorem test_decode_jnz : decodeTableWord 8 0b011111 = some (.jnz 7) := by decide
theorem test_decode_bxc : decodeTableWord 8 0b100111 = some (.bxc 7) := by decide
theorem test_decode_out : decodeTableWord 8 0b101100 = some (.out 4) := by decide
theorem test_decode_bdv : decodeTableWord 8 0b110001 = some (.bdv 1) := by decide
theorem test_decode_cdv : decodeTableWord 8 0b111101 = some (.cdv 5) := by decide
theorem test_decode_adv7 : decodeTableWord 8 0b000111 = some .adv7 := by decide
theorem test_decode_bst7 : decodeTableWord 8 0b010111 = some .bst7 := by decide
theorem test_decode_out7 : decodeTableWord 8 0b101111 = some .out7 := by decide
theorem test_decode_bdv7 : decodeTableWord 8 0b110111 = some .bdv7 := by decide
theorem test_decode_cdv7 : decodeTableWord 8 0b111111 = some .cdv7 := by decide

/-- A set bit above the 6-bit word is an opcode above 7 and no instruction (30_encoding.md R52). -/
theorem test_decode_refuses_bit_six : decodeTableWord 8 0b1000000 = none := by decide

/-- The rows of spec/opcode_table.json as (mask, match, source mnemonic), the full-mask rows first
(30_encoding.md R54). -/
def tableRows : List (Nat × Nat × String) :=
  [(0x3F, 0x07, "adv"), (0x3F, 0x17, "bst"), (0x3F, 0x2F, "out"), (0x3F, 0x37, "bdv"), (0x3F, 0x3F, "cdv"),
   (0x38, 0x00, "adv"), (0x38, 0x08, "bxl"), (0x38, 0x10, "bst"), (0x38, 0x18, "jnz"), (0x38, 0x20, "bxc"),
   (0x38, 0x28, "out"), (0x38, 0x30, "bdv"), (0x38, 0x38, "cdv")]

/-- The mask and match of the row an instruction stands for. -/
def rowOf (i : Instr) : Nat × Nat :=
  if isReserved i then (0x3F, encodeWord i) else (0x38, 8 * i.opcode.toNat)

/-- The decoder takes the first row whose match a word has under its mask, for all 64 words. -/
theorem test_decode_follows_table : ∀ w : Fin 64,
    (decodeTableWord 8 w).map (fun i => (rowOf i, i.mnemonic)) =
      (tableRows.find? (fun r => w.val &&& r.1 == r.2.1)).map (fun r => ((r.1, r.2.1), r.2.2)) := by decide

/-! ## One step of each instruction: 95_test_vectors.md section 2.3 -/

theorem test_adv_three :
    nextIs (step (start [0, 3] 117440 0 0)) { start [0, 3] 14680 0 0 with ip := 2 } = true := by decide
theorem test_adv_amount_64 :
    nextIs (step (start [0, 5] allOnes 64 0)) { start [0, 5] 0 64 0 with ip := 2 } = true := by decide
theorem test_bdv_old_b_is_the_amount :
    nextIs (step (start [6, 5] 1000 3 0)) { start [6, 5] 1000 125 0 with ip := 2 } = true := by decide
theorem test_bdv_amount_63 :
    nextIs (step (start [6, 5] allOnes 63 0)) { start [6, 5] allOnes 1 0 with ip := 2 } = true := by decide
theorem test_cdv_old_c_is_the_amount :
    nextIs (step (start [7, 6] 729 3 5)) { start [7, 6] 729 3 22 with ip := 2 } = true := by decide
theorem test_cdv_by_b :
    nextIs (step (start [7, 5] 729 3 5)) { start [7, 5] 729 3 91 with ip := 2 } = true := by decide
theorem test_bxl_literal_is_no_register :
    nextIs (step (start [1, 4] 99 8 2)) { start [1, 4] 99 12 2 with ip := 2 } = true := by decide
theorem test_bxl_seven :
    nextIs (step (start [1, 7] 0 allOnes 0)) { start [1, 7] 0 0xFFFFFFFFFFFFFFF8 0 with ip := 2 } = true := by decide
theorem test_bst_scenario_one :
    nextIs (step (start [2, 6] 0 0 9)) { start [2, 6] 0 1 9 with ip := 2 } = true := by decide
theorem test_bst_clears_high_bits :
    nextIs (step (start [2, 4] 2024 allOnes 9)) { start [2, 4] 2024 0 9 with ip := 2 } = true := by decide
theorem test_bxc_operand_seven :
    nextIs (step (start [4, 7] 0 2024 43690)) { start [4, 7] 0 44354 43690 with ip := 2 } = true := by decide
theorem test_bxc_all_bits :
    nextIs (step (start [4, 0] 0 allOnes 1)) { start [4, 0] 0 0xFFFFFFFFFFFFFFFE 1 with ip := 2 } = true := by decide
theorem test_jnz_tests_the_top_bit :
    nextIs (step (start [3, 6] 0x8000000000000000 0 0)) { start [3, 6] 0x8000000000000000 0 0 with ip := 6 } = true := by
  decide
theorem test_jnz_not_taken :
    nextIs (step (start [3, 4, 5, 1, 5, 2] 0 0 0)) { start [3, 4, 5, 1, 5, 2] 0 0 0 with ip := 2 } = true := by decide
theorem test_out_low_bits :
    nextIs (step (start [5, 6] 10 11 12)) { start [5, 6] 10 11 12 with ip := 2, out := [4] } = true := by decide
/-- 95_test_vectors.md section 2.4: the third out over OUT_CAP = 2. -/
theorem test_out_overflow :
    nextIs (step { start [5, 1, 5, 2, 5, 3] 0 0 0 with ip := 4, out := [1, 2], outCap := some 2 })
      { start [5, 1, 5, 2, 5, 3] 0 0 0 with ip := 4, out := [1, 2], outCap := some 2, runState := .trapped, cause := .outputOverflow } = true := by
  decide
theorem test_adv7_traps :
    nextIs (step (start [0, 7] 5 6 7)) { start [0, 7] 5 6 7 with runState := .trapped, cause := .invalidOperand } = true := by
  decide
theorem test_bst7_traps :
    nextIs (step (start [2, 7] 1 2 3)) { start [2, 7] 1 2 3 with runState := .trapped, cause := .invalidOperand } = true := by
  decide
/-- 95_test_vectors.md section 2.4: InvalidOperand comes before OutputOverflow. -/
theorem test_out7_traps_before_overflow :
    nextIs (step { start [5, 1, 5, 2, 5, 7] 0 0 0 with ip := 4, out := [1, 2], outCap := some 2 })
      { start [5, 1, 5, 2, 5, 7] 0 0 0 with ip := 4, out := [1, 2], outCap := some 2, runState := .trapped, cause := .invalidOperand } = true := by
  decide
theorem test_bdv7_traps :
    nextIs (step (start [6, 7] 1 2 3)) { start [6, 7] 1 2 3 with runState := .trapped, cause := .invalidOperand } = true := by
  decide
theorem test_cdv7_traps :
    nextIs (step (start [7, 7] 1 2 3)) { start [7, 7] 1 2 3 with runState := .trapped, cause := .invalidOperand } = true := by
  decide

/-! ## Fetch, halting, traps, odd pointers: 95_test_vectors.md sections 2.3, 2.4 and P5 -/

theorem test_empty_program_halts :
    nextIs (step (start [] 1 2 3)) { start [] 1 2 3 with runState := .halted } = true := by decide
theorem test_lone_opcode_traps :
    nextIs (step (start [4] 1 2 3)) { start [4] 1 2 3 with runState := .trapped, cause := .truncatedFetch } = true := by
  decide
theorem test_jump_past_the_end_halts :
    nextIs (step { start [3, 7] 5 0 0 with ip := 7 }) { start [3, 7] 5 0 0 with ip := 7, runState := .halted } = true := by
  decide
/-- P5, step 2: at index 3 the pair 0,1 is adv 1. -/
theorem test_odd_pointer_pairs_the_tape :
    nextIs (step { start [3, 3, 5, 0, 1, 5, 4, 0] 9 0 0 with ip := 3 })
      { start [3, 3, 5, 0, 1, 5, 4, 0] 4 0 0 with ip := 5 } = true := by decide
theorem test_trapped_has_no_step :
    faultIs (step { start [4] 1 2 3 with runState := .trapped, cause := .truncatedFetch }) (.trapped .truncatedFetch)
      = true := by decide

/-! ## The host's side -/

theorem test_fetch_word_runs_from_reset :
    nextIs (step (State.reset.withFetchWord 8 0b001101)) { State.reset.withFetchWord 8 0b001101 with b := 5, ip := 2 } = true := by
  decide
/-- 70_reset_and_hazards.md R106: an odd length, a token above 7 and a value of 2^64 are a ParseError. -/
theorem test_host_accepts :
    (hostAccepts 1 2 3 [5, 4] && !hostAccepts 1 2 3 [5] && !hostAccepts 1 2 3 [] && !hostAccepts 1 2 3 [8, 0]
      && !hostAccepts (2 ^ 64) 2 3 [5, 4]) = true := by decide
theorem test_load_refuses_token_eight :
    refusalIs (hostMove (.loadProgram [8]) { State.reset with runState := .halted }) .tokenOutOfRange = true := by decide
/-- 95_test_vectors.md S2: the host prints 0,1,2. -/
theorem test_format_out : formatOut [0, 1, 2] = ['0', ',', '1', ',', '2'] := by decide
/-- 10_state.md R23, quoting the source's check "after execution B=1": a halted run gives back its registers, IP and OUT,
a running one nothing. -/
theorem test_read_back :
    ({ start [2, 6] 0 1 9 with ip := 2, runState := .halted } : State).readBack = some ⟨0, 1, 9, 2, 0, []⟩ ∧
    (start [2, 6] 0 1 9).readBack = none := by decide
/-- The spec's listing of word 0x2C (30_encoding.md R58). -/
theorem test_listing : Instr.listing (.out 4) = "out 4" := by decide

/-! ## Witnesses: for each statement with hypotheses, a state and operands that meet them, clause by clause -/

theorem witness_DecodeOfEncodeIsTheInstruction :
    Instr.wellFormed (.cdv 6) = true ∧ Instr.wellFormed .cdv7 = true ∧ Instr.wellFormed (.bxl 7) = true := by decide
theorem witness_DecodedTapeIsTheEncoding : decode [7, 7, 3] = .ok (.cdv7, [3]) ∧ decode [0, 6] = .ok (.adv 6, []) := by
  exact ⟨rfl, rfl⟩
theorem witness_EveryPackedWordDecodesOnce :
    63 < 64 ∧ Instr.wellFormed .cdv7 = true ∧ encodeWord .cdv7 = 63 := by decide
theorem witness_DecoderRefusesByName_opcode : 7 < 8 := by decide
theorem witness_DecoderRefusesByName_operand : 7 ≤ 7 ∧ 7 < 8 := by decide
theorem witness_StepRunsTheDecodedInstruction :
    (start [7, 6] 1 2 3).runState = .running ∧ (start [7, 6] 1 2 3).ip + 2 ≤ (start [7, 6] 1 2 3).plen ∧
    Instr.wellFormed (.cdv 6) = true ∧
    decode [((start [7, 6] 1 2 3).mem.read 0).toNat, ((start [7, 6] 1 2 3).mem.read 1).toNat] = .ok (.cdv 6, []) :=
  ⟨rfl, by decide, rfl, rfl⟩
theorem witness_FetchWordIsTheNextInstruction :
    State.reset.mem.wf = true ∧ decodeTableWord 8 63 = some .cdv7 ∧ decodeTableWord 8 0 = some (.adv 0) := by decide
theorem witness_HaltExactlyPastTheEnd_halts :
    (start [] 1 2 3).runState = .running ∧ (start [] 1 2 3).plen ≤ (start [] 1 2 3).ip := by decide
theorem witness_HaltExactlyPastTheEnd_only :
    (start [] 1 2 3).runState = .running ∧ step (start [] 1 2 3) = .next (start [] 1 2 3).halt ∧
    (start [] 1 2 3).halt.runState = .halted ∧ (start [] 1 2 3).cause = .none := ⟨rfl, rfl, rfl, rfl⟩
theorem witness_LoneOpcodeTrapsTruncatedFetch :
    (start [4] 1 2 3).runState = .running ∧ (start [4] 1 2 3).ip + 1 = (start [4] 1 2 3).plen := by decide
/-- The five branches of the outcome statement: past the end, at the last element, a reserved word, a full OUT, and a
step that goes on. -/
theorem witness_EveryRunningStepHasItsOutcome :
    (start [] 1 2 3).plen ≤ (start [] 1 2 3).ip ∧
    ¬ (start [4] 1 2 3).plen ≤ (start [4] 1 2 3).ip ∧ (start [4] 1 2 3).ip + 1 = (start [4] 1 2 3).plen ∧
    comboOpcode ((start [5, 7] 1 2 3).mem.read 0) = true ∧ (start [5, 7] 1 2 3).mem.read 1 = 7 ∧
    ({ start [5, 6] 1 2 3 with outCap := some 0 } : State).outCap = some (start [5, 6] 1 2 3).out.length ∧
    (start [5, 6] 1 2 3).runState = .running := by decide
theorem witness_StoppedCoreTakesNoInstruction :
    ({ State.reset with runState := .halted } : State).runState = .halted ∧
    ({ State.reset with runState := .trapped } : State).runState = .trapped ∧
    State.powerOn.runState = .unlaunched := ⟨rfl, rfl, rfl⟩
theorem witness_StepAgreesWithNaturalNumbers : (start [0, 5] allOnes 64 0).runState = .running := rfl
theorem witness_RunAgreesWithNaturalNumbers :
    Sys2Proof.core.run 1 (start [4, 0] 0 5 1) = .next { start [4, 0] 0 4 1 with ip := 2 } := rfl
theorem witness_ComboOperandIsNumberOrRegister_number : (3 : Elem).toNat ≤ 3 := by decide
theorem witness_ComboOperandIsNumberOrRegister_class : Instr.jnz 7 = .bxl 7 ∨ Instr.jnz 7 = .jnz 7 ∨ Instr.jnz 7 = .bxc 7 := by
  decide
theorem witness_ShiftLaws : (63 : Word).toNat < 2 ^ (6 : Word).toNat := by decide
theorem witness_AdvDividesAIntoA : (6 : Elem) ≠ 7 ∧ (Instr.adv7 = .adv 7 ∨ Instr.adv7 = .adv7) := by decide
theorem witness_BdvDividesAIntoB : (6 : Elem) ≠ 7 ∧ (Instr.bdv7 = .bdv 7 ∨ Instr.bdv7 = .bdv7) := by decide
theorem witness_CdvDividesAIntoC : (6 : Elem) ≠ 7 ∧ (Instr.cdv7 = .cdv 7 ∨ Instr.cdv7 = .cdv7) := by decide
theorem witness_BstLoadsTheLowThreeBits : (6 : Elem) ≠ 7 ∧ (Instr.bst7 = .bst 7 ∨ Instr.bst7 = .bst7) := by decide
theorem witness_OnlyAdvChangesAAndNeverUpwards :
    step (start [0, 1] 2024 5 6) = .next { start [0, 1] 1012 5 6 with ip := 2 } ∧
    ({ start [0, 1] 1012 5 6 with ip := 2 } : State).a ≠ (start [0, 1] 2024 5 6).a := ⟨rfl, by decide⟩
theorem witness_TwoAdvByLiteralsAddUp :
    (3 : Elem).toNat ≤ 3 ∧ exec (.adv 3) (start [] 117440 0 0) = .next { start [] 14680 0 0 with ip := 2 } ∧
    exec (.adv 3) { start [] 14680 0 0 with ip := 2 } = .next { start [] 1835 0 0 with ip := 4 } := ⟨by decide, rfl, rfl⟩
theorem witness_BxlXorsTheLiteralIntoB :
    exec (.bxl 7) (start [] 1 29 2) = .next { start [] 1 26 2 with ip := 2 } ∧ 3 ≤ 3 := ⟨rfl, by decide⟩
theorem witness_XorTwiceRestoresB :
    exec (.bxl 7) (start [] 1 29 2) = .next { start [] 1 26 2 with ip := 2 } ∧
    exec (.bxl 7) { start [] 1 26 2 with ip := 2 } = .next { start [] 1 29 2 with ip := 4 } ∧
    exec (.bxc 7) (start [] 1 5 3) = .next { start [] 1 6 3 with ip := 2 } ∧
    exec (.bxc 7) { start [] 1 6 3 with ip := 2 } = .next { start [] 1 5 3 with ip := 4 } := ⟨rfl, rfl, rfl, rfl⟩
theorem witness_JnzJumpsWhenAIsNotZero : (start [] 0x8000000000000000 0 0).a ≠ 0 ∧ (start [] 0 0 0).a = 0 := by decide
theorem witness_PointerUpdate : (start [] 1 2 3).runState = .running := rfl
theorem witness_HighIndicesAreReachedByFallingThrough :
    step { start [4, 0, 4, 0, 4, 0, 4, 0] 0 0 0 with ip := 6 } = .next { start [4, 0, 4, 0, 4, 0, 4, 0] 0 0 0 with ip := 8 } ∧
    8 ≤ 8 := ⟨rfl, by decide⟩
theorem witness_SelfJumpRepeatsForEver :
    (start [3, 0] 1 0 0).runState = .running ∧ (start [3, 0] 1 0 0).ip + 2 ≤ (start [3, 0] 1 0 0).plen ∧
    (start [3, 0] 1 0 0).mem.read 0 = 3 ∧ ((start [3, 0] 1 0 0).mem.read 1).toNat = (start [3, 0] 1 0 0).ip ∧
    (start [3, 0] 1 0 0).a ≠ 0 := by decide
theorem witness_OddPointerStaysOdd :
    ({ start [4, 4, 0] 0 0 0 with ip := 1 } : State).ip % 2 = 1 ∧
    step { start [4, 4, 0] 0 0 0 with ip := 1 } = .next { start [4, 4, 0] 0 0 0 with ip := 3 } := ⟨by decide, rfl⟩
theorem witness_OutAppendsTheLowThreeBits_appends :
    (6 : Elem) ≠ 7 ∧ (start [] 1 2 3).outCap ≠ some (start [] 1 2 3).out.length ∧
    ({ start [] 1 2 3 with outCap := some 1 } : State).outCap ≠ some (start [] 1 2 3).out.length := by decide
theorem witness_OutAppendsTheLowThreeBits_full :
    (6 : Elem) ≠ 7 ∧ ({ start [] 1 2 3 with outCap := some 0 } : State).outCap = some (start [] 1 2 3).out.length ∧
    (Instr.out7 = .out 7 ∨ Instr.out7 = .out7) := by decide
theorem witness_OutputIsAppendOnly :
    step (start [5, 3] 1 2 3) = .next { start [5, 3] 1 2 3 with ip := 2, out := [3] } := rfl
theorem witness_UnboundedOutputNeverOverflows :
    (start [5, 7] 1 2 3).outCap = none ∧ (start [5, 7] 1 2 3).runState = .running ∧
    step (start [5, 7] 1 2 3) = .next ((start [5, 7] 1 2 3).trap .invalidOperand) ∧
    ((start [5, 7] 1 2 3).trap .invalidOperand).runState = .trapped := ⟨rfl, rfl, rfl, rfl⟩
theorem witness_InvalidOperandExactlyOnReservedWords :
    (start [7, 7] 1 2 3).runState = .running ∧ (start [7, 7] 1 2 3).ip + 2 ≤ (start [7, 7] 1 2 3).plen ∧
    comboOpcode ((start [7, 7] 1 2 3).mem.read 0) = true ∧ (start [7, 7] 1 2 3).mem.read 1 = 7 ∧
    ((start [7, 7] 1 2 3).trap .invalidOperand).cause = .invalidOperand := by decide
theorem witness_ReservedRowsTakeTheTrap :
    (Instr.cdv7 = .adv7 ∧ Instr.cdv 7 = .adv 7) ∨ (Instr.cdv7 = .bst7 ∧ Instr.cdv 7 = .bst 7) ∨
      (Instr.cdv7 = .out7 ∧ Instr.cdv 7 = .out 7) ∨ (Instr.cdv7 = .bdv7 ∧ Instr.cdv 7 = .bdv 7) ∨
      (Instr.cdv7 = .cdv7 ∧ Instr.cdv 7 = .cdv 7) := by decide
/-- Also the witness of `UnknownOpcodeIsNeverRaised`, which has the same hypotheses. -/
theorem witness_TrapsArePrecise :
    (start [4] 1 2 3).runState = .running ∧
    step (start [4] 1 2 3) = .next ((start [4] 1 2 3).trap .truncatedFetch) ∧
    ((start [4] 1 2 3).trap .truncatedFetch).runState = .trapped := ⟨rfl, rfl, rfl⟩
theorem witness_UnknownOpcodeIsNeverRaised :
    (start [2, 7] 1 2 3).runState = .running ∧
    step (start [2, 7] 1 2 3) = .next ((start [2, 7] 1 2 3).trap .invalidOperand) ∧
    ((start [2, 7] 1 2 3).trap .invalidOperand).runState = .trapped := ⟨rfl, rfl, rfl⟩
theorem witness_RunStateTransitions : step (start [] 1 2 3) = .next (start [] 1 2 3).halt := rfl
theorem witness_RegisterReadWriteTable :
    instrWrites (.bst 6) .c = false ∧
    Instr.wellFormed (.bst 6) = true ∧ instrReads (.bst 6) .a = false ∧ instrWrites (.bst 6) .a = false ∧
    instrReads (.bst 6) .b = false ∧ instrWrites (.bst 6) .b = true := by decide
theorem witness_ProgramIsReadOnly : Sys2Proof.core.run 1 (start [] 1 2 3) = .next (start [] 1 2 3).halt := rfl

/-- A state with the invariant that is RUNNING over a program of two elements. -/
theorem witness_inv : (start [4, 0] 0 5 1).Inv where
  launched := by decide
  memWf := by decide
  memBelow := fun i hi => (Memory.read_ofTape [4, 0] i).trans (List.getD_eq_default _ _ hi)
  plenFits := Nat.le_add_left 2 _
  ipBound := fun _ => by decide
  causeMatches := by decide
  outFits := nofun

theorem witness_StepKeepsInvariant :
    (start [4, 0] 0 5 1).Inv ∧ step (start [4, 0] 0 5 1) = .next { start [4, 0] 0 4 1 with ip := 2 } :=
  ⟨witness_inv, rfl⟩
theorem witness_HostMovesKeepInvariant_launch :
    (start [4, 0] 0 5 1).Inv ∧ hostMove (.launch 7 8 9) (start [4, 0] 0 5 1) = .next (start [4, 0] 7 8 9) :=
  ⟨witness_inv, rfl⟩
/-- PLEN_MAX is at least 2, so a program of two elements always fits. -/
theorem load_two_elements (s : State) (hr : s.runState ≠ .running) :
    hostMove (.loadProgram [4, 0]) s = .next (s.loadTape [4, 0]) := by
  have hfit : ¬ Config.plenMax < 2 := Nat.not_lt.2 (Nat.le_add_left 2 _)
  simp [hostMove, hr, hfit]
theorem witness_HostMovesKeepInvariant_load :
    ({ start [4, 0] 0 5 1 with runState := .halted } : State).Inv ∧
    hostMove (.loadProgram [4, 0]) { start [4, 0] 0 5 1 with runState := .halted } =
      .next { start [4, 0] 0 5 1 with runState := .halted } :=
  ⟨{ witness_inv with launched := by decide, ipBound := nofun, causeMatches := by decide },
   load_two_elements _ (by decide)⟩
theorem witness_WellFormedProgramsNeverTrap :
    (start [3, 0] 1 2 3).ProgramWellFormed ∧ (start [3, 0] 1 2 3).runState = .running ∧
    (start [3, 0] 1 2 3).ip % 2 = 0 ∧ (start [3, 0] 1 2 3).outCap = none := by
  have zero : ∀ i, i + 2 ≤ (start [3, 0] 1 2 3).plen → i = 0 := fun i hi => by
    have : (start [3, 0] 1 2 3).plen = 2 := rfl
    omega
  refine ⟨⟨rfl, ?_, ?_⟩, rfl, rfl, rfl⟩
  · intro i _ hi _
    obtain rfl := zero i hi
    decide
  · intro i _ hi hc
    obtain rfl := zero i hi
    revert hc
    decide
theorem witness_LaunchSetsEveryItem : 2 ^ 64 ≤ 2 ^ 64 ∨ 2 ^ 64 ≤ 0 ∨ 2 ^ 64 ≤ 0 := by decide
theorem witness_ProgramLoadStoresTheTape_loads :
    ({ State.reset with runState := .halted } : State).runState ≠ .running ∧ (∀ x ∈ [7, 0], x ≤ 7) ∧
    [7, 0].length ≤ Config.plenMax := ⟨by decide, by decide, Nat.le_add_left 2 _⟩
theorem witness_ProgramLoadStoresTheTape_refuses : State.reset.runState = .running := rfl
theorem witness_AcceptedInputStartsARun :
    hostAccepts (2 ^ 64 - 1) 0 0 [7, 0] = true ∧ ({ State.reset with runState := .halted } : State).runState ≠ .running ∧
    [7, 0].length ≤ Config.plenMax := ⟨by decide, by decide, Nat.le_add_left 2 _⟩
theorem witness_LaunchForgetsTheOldRun :
    (start [3, 0] 1 2 3).mem = (start [3, 0] 4 5 6).mem ∧ (start [3, 0] 1 2 3).plen = (start [3, 0] 4 5 6).plen ∧
    (start [3, 0] 1 2 3).outCap = (start [3, 0] 4 5 6).outCap := by decide
/-- The FSM's events: a fetch past the end, one inside the program, and a core that is not RUNNING. -/
theorem witness_FsmTable :
    ((start [] 1 2 3).runState = .running ∧ (start [] 1 2 3).plen ≤ (start [] 1 2 3).ip) ∧
    ((start [4] 1 2 3).runState = .running ∧ (start [4] 1 2 3).ip < (start [4] 1 2 3).plen) ∧
    ((start [] 1 2 3).halt.runState ≠ .running ∧ fsm .step (start [] 1 2 3).halt = .next (start [] 1 2 3).halt) :=
  ⟨by decide, by decide, by decide, rfl⟩
theorem witness_HostReadsTheResult :
    ({ State.reset with runState := .halted } : State).runState = .halted ∧
    ({ State.reset with runState := .trapped } : State).runState = .trapped ∧ State.reset.runState = .running := by decide

/-- The first two clauses at each run state, and the third on a halt and on a trap. -/
theorem witness_EndedRunIsReadBack :
    (start [] 1 2 3).halt.runState = .halted ∧ ((start [4] 1 2 3).trap .truncatedFetch).runState = .trapped ∧
    (start [4] 1 2 3).runState = .running ∧ State.powerOn.runState = .unlaunched ∧
    step (start [] 1 2 3) = .next (start [] 1 2 3).halt ∧ (start [] 1 2 3).halt.runState ≠ .running ∧
    step (start [4] 1 2 3) = .next ((start [4] 1 2 3).trap .truncatedFetch) ∧
    ((start [4] 1 2 3).trap .truncatedFetch).runState ≠ .running :=
  ⟨rfl, rfl, rfl, rfl, rfl, by decide, rfl, by decide⟩

end Sys2Proof.Tests
end

section
/-! SUPPORT. The operand forms of 30_encoding.md R48 and R49: O15 and O16. -/

namespace Sys2Proof.Machine

/-- The reserved words are those of combo-class opcodes (30_encoding.md R47, R51). -/
theorem operandClass_of_isReserved {i : Instr} (h : isReserved i = true) : i.operandClass = .combo := by
  cases i with
  | bxl | jnz | bxc => cases h
  | adv | bst | out | bdv | cdv | adv7 | bst7 | out7 | bdv7 | cdv7 => rfl

/-- Only the combo class can trap: an instruction of the literal or the ignored class answers a next state with both
status fields as they were (30_encoding.md R48, R49). -/
theorem exec_keeps_status_of_not_combo {i : Instr} (hi : i.operandClass ≠ .combo) (s : State) :
    ∃ t, exec i s = .next t ∧ t.runState = s.runState ∧ t.cause = s.cause := by
  rcases exec_cases i s with ⟨-, -, r, v, -, e⟩ | ⟨-, o, -, -, e⟩ | ⟨-, o, -, -, e⟩ | ⟨-, o, v, hout, -⟩ |
    ⟨-, o, hout, -⟩ | ⟨hres, -⟩
  · exact ⟨_, e, by simp⟩
  · exact ⟨_, e, by simp⟩
  · exact ⟨_, e, by simp⟩
  · exact absurd (hout ▸ rfl) hi
  · exact absurd (hout ▸ rfl) hi
  · exact absurd (operandClass_of_isReserved hres) hi

/-- The combo operands 0 to 3 are literals (30_encoding.md R49). -/
theorem combo_eq_lit {o : Elem} (h : o.toNat ≤ 3) (s : State) : combo o s = some (lit o) := by
  have small : o = 0 ∨ o = 1 ∨ o = 2 ∨ o = 3 := by bv_omega
  rcases small with rfl | rfl | rfl | rfl <;> rfl

/-- Combo operand 4 is the whole of A (30_encoding.md R49). -/
@[simp] theorem combo_four (s : State) : combo 4 s = some s.a := rfl

/-- Combo operand 5 is the whole of B (30_encoding.md R49). -/
@[simp] theorem combo_five (s : State) : combo 5 s = some s.b := rfl

/-- Combo operand 6 is the whole of C (30_encoding.md R49). -/
@[simp] theorem combo_six (s : State) : combo 6 s = some s.c := rfl

/-- Settles O15: bxl and jnz are of the literal class, which never traps. -/
theorem literalOperandIsItsNumber : Obligations.LiteralOperandIsItsNumber :=
  ⟨lit_toNat,
   fun _ s => exec_keeps_status_of_not_combo (by simp [Instr.operandClass]) s,
   fun _ s => exec_keeps_status_of_not_combo (by simp [Instr.operandClass]) s⟩

/-- Settles O16: the values by the cases of the element, and the last clause by the operand class. -/
theorem comboOperandIsNumberOrRegister : Obligations.ComboOperandIsNumberOrRegister := by
  refine ⟨fun o s h => ⟨lit o, combo_eq_lit h s, lit_toNat o⟩, fun s => ?_, withCombo_seven, fun o s i hi => ?_⟩
  · exact ⟨combo_four s, combo_five s, combo_six s, (combo_eq_none_iff 7 s).2 rfl⟩
  · have notCombo : i.operandClass ≠ .combo := by
      rcases hi with rfl | rfl | rfl <;> simp [Instr.operandClass]
    exact exec_keeps_status_of_not_combo notCombo s

end Sys2Proof.Machine
end

section
/-! SUPPORT. The shift family of 40_shift_divide.md: O18, O19 and O20. -/

namespace Sys2Proof.Machine

/-- A packed word of two elements decodes as its pair (30_encoding.md R46). -/
theorem decodeTableWord_elems (opcode operand : Elem) :
    decodeTableWord 8 (8 * opcode.toNat + operand.toNat) = some (decodeElems opcode operand) := by
  have hopcode := opcode.isLt
  have hoperand := operand.isLt
  have unpacked : unpackWord (8 * opcode.toNat + operand.toNat) = [opcode.toNat, operand.toNat] := by
    simp only [unpackWord, List.cons.injEq, and_true]
    omega
  rw [decodeTableWord, if_pos (by omega), unpacked]
  simp [decode, decodePair_elems]

/-- A reserved instruction, as a row of its own or as its opcode with operand 7, takes the InvalidOperand trap
(30_encoding.md R51, 60_exceptions.md R86). -/
theorem exec_of_isReserved {i : Instr} (h : isReserved i = true) (s : State) :
    exec i s = .next (s.trap .invalidOperand) := by
  rcases exec_cases i s with ⟨n, -⟩ | ⟨n, -⟩ | ⟨n, -⟩ | ⟨n, -⟩ | ⟨n, -⟩ | ⟨-, e⟩
  case inr.inr.inr.inr.inr => exact e
  all_goals exact absurd h (by simp [n])

/-- The shift as a word: the floor of the division (40_shift_divide.md R65). -/
theorem shr_eq_ofNat_div (a n : Word) : shr a n = BitVec.ofNat 64 (a.toNat / 2 ^ n.toNat) := by
  rw [← shr_toNat, BitVec.ofNat_toNat, BitVec.setWidth_eq]

/-- The family's effect once its operand has the value `v` (40_shift_divide.md R65). -/
theorem shiftInto_of_combo (dest : Reg) {o : Elem} {s : State} {v : Word} (h : combo o s = some v) :
    shiftInto dest o s = .next (s.setReg dest (BitVec.ofNat 64 (s.a.toNat / 2 ^ v.toNat))).advance := by
  rw [shiftInto, withCombo_some h, shr_eq_ofNat_div, reg_a]

/-- The family's effect for every operand it allows (40_shift_divide.md R66 to R68). -/
theorem shiftInto_of_ne_seven (dest : Reg) {o : Elem} (h : o ≠ 7) (s : State) :
    ∃ v, combo o s = some v ∧
      shiftInto dest o s = .next (s.setReg dest (BitVec.ofNat 64 (s.a.toNat / 2 ^ v.toNat))).advance := by
  obtain ⟨v, hv⟩ := combo_some_of_ne o s h
  exact ⟨v, hv, shiftInto_of_combo dest hv⟩

/-- Settles O18: adv is the family's effect with destination A, and its reserved forms trap. -/
theorem advDividesAIntoA : Obligations.AdvDividesAIntoA := by
  refine ⟨fun o s h => shiftInto_of_ne_seven .a h s, fun s i hi => ?_, decodeTableWord_elems 0⟩
  have reserved : isReserved i = true := by rcases hi with rfl | rfl <;> rfl
  exact exec_of_isReserved reserved s

/-- Settles O19: bdv is the family's effect with destination B, and its reserved forms trap. -/
theorem bdvDividesAIntoB : Obligations.BdvDividesAIntoB := by
  refine ⟨fun o s h => shiftInto_of_ne_seven .b h s, fun s i hi => ?_, decodeTableWord_elems 6⟩
  have reserved : isReserved i = true := by rcases hi with rfl | rfl <;> rfl
  exact exec_of_isReserved reserved s

/-- Settles O20: cdv is the family's effect with destination C, and its reserved forms trap. -/
theorem cdvDividesAIntoC : Obligations.CdvDividesAIntoC := by
  refine ⟨fun o s h => shiftInto_of_ne_seven .c h s, fun s i hi => ?_, decodeTableWord_elems 7⟩
  have reserved : isReserved i = true := by rcases hi with rfl | rfl <;> rfl
  exact exec_of_isReserved reserved s

end Sys2Proof.Machine
end

section
/-! SUPPORT. The bitwise family of 41_bitwise.md: O23, O24 and O25. -/

namespace Sys2Proof.Machine

/-- A literal xored into a word, over numbers (41_bitwise.md R70). -/
theorem xor_lit_eq_ofNat (b : Word) (o : Elem) : b ^^^ lit o = BitVec.ofNat 64 (b.toNat ^^^ o.toNat) := by
  rw [← lit_toNat o, ← BitVec.toNat_xor, BitVec.ofNat_toNat, BitVec.setWidth_eq]

/-- `and 7` as a word: the remainder by 8 (41_bitwise.md R70). -/
theorem andSeven_eq_ofNat_mod (v : Word) : andSeven v = BitVec.ofNat 64 (v.toNat % 8) := by
  rw [← andSeven_toNat, BitVec.ofNat_toNat, BitVec.setWidth_eq]

/-- A literal has no bit above bit 2 (30_encoding.md R48). -/
theorem lit_getLsbD_of_three_le (o : Elem) {k : Nat} (h : 3 ≤ k) : (lit o).getLsbD k = false := by
  rw [lit, BitVec.getLsbD_setWidth, BitVec.getLsbD_of_ge o k h, Bool.and_false]

/-- A literal xored into a word leaves the word's bits from 3 on (41_bitwise.md R70). -/
theorem xor_lit_getLsbD_of_three_le (b : Word) (o : Elem) {k : Nat} (h : 3 ≤ k) :
    (b ^^^ lit o).getLsbD k = b.getLsbD k := by
  rw [BitVec.getLsbD_xor, lit_getLsbD_of_three_le o h, Bool.xor_false]

/-- The effect of bxl (41_bitwise.md R71). -/
theorem exec_bxl (o : Elem) (s : State) : exec (.bxl o) s = .next (s.setReg .b (s.b ^^^ lit o)).advance := rfl

/-- The effect of bxc (41_bitwise.md R73). -/
theorem exec_bxc (o : Elem) (s : State) : exec (.bxc o) s = .next (s.setReg .b (s.b ^^^ s.c)).advance := rfl

/-- The effect of bst once its operand has the value `v` (41_bitwise.md R72). -/
theorem exec_bst_of_combo {o : Elem} {s : State} {v : Word} (h : combo o s = some v) :
    exec (.bst o) s = .next (s.setReg .b (andSeven v)).advance :=
  withCombo_some h _

/-- Settles O23: the xor over numbers, and the bits of a literal end at bit 2. -/
theorem bxlXorsTheLiteralIntoB : Obligations.BxlXorsTheLiteralIntoB := by
  refine ⟨fun o s => ?_, fun o s t ht k hk => ?_, decodeTableWord_elems 1⟩
  · rw [exec_bxl, xor_lit_eq_ofNat]
    rfl
  · cases (exec_bxl o s).symm.trans ht
    exact xor_lit_getLsbD_of_three_le s.b o hk

/-- Settles O24: operands 0 to 6 have a value, whose `and 7` is its remainder by 8; the reserved forms trap. -/
theorem bstLoadsTheLowThreeBits : Obligations.BstLoadsTheLowThreeBits := by
  refine ⟨fun o s h => ?_, fun s i hi => ?_, decodeTableWord_elems 2⟩
  · obtain ⟨v, hv⟩ := combo_some_of_ne o s h
    refine ⟨v, hv, ?_⟩
    rw [exec_bst_of_combo hv, andSeven_eq_ofNat_mod]
    rfl
  · have reserved : isReserved i = true := by rcases hi with rfl | rfl <;> rfl
    exact exec_of_isReserved reserved s

/-- Settles O25: bxc's effect is the same for every operand element, and none of its words is reserved. -/
theorem bxcXorsCIntoB : Obligations.BxcXorsCIntoB :=
  ⟨exec_bxc, decodeTableWord_elems 4⟩

end Sys2Proof.Machine
end

section
/-! SUPPORT. The control transfer of 42_control_transfer.md: O27. -/

namespace Sys2Proof.Machine

/-- The condition of jnz is on the whole of A (42_control_transfer.md R75). -/
theorem jumpTaken_iff (s : State) : jumpTaken s = true ↔ s.a ≠ 0 := bne_iff_ne

/-- The effect of jnz when it jumps (42_control_transfer.md R75). -/
theorem exec_jnz_of_ne_zero (o : Elem) {s : State} (h : s.a ≠ 0) : exec (.jnz o) s = .next (s.jumpTo o.toNat) := by
  have taken : jumpTaken s = true := (jumpTaken_iff s).2 h
  rw [exec, execJnz, if_pos taken, lit_toNat]

/-- The effect of jnz when it falls through (42_control_transfer.md R75). -/
theorem exec_jnz_of_eq_zero (o : Elem) {s : State} (h : s.a = 0) : exec (.jnz o) s = .next s.advance := by
  have notTaken : ¬ jumpTaken s = true := fun taken => (jumpTaken_iff s).1 taken h
  rw [exec, execJnz, if_neg notTaken]

/-- Settles O27: the two cases of the test on A; a jump and an advance write IP alone, and no word of jnz is reserved. -/
theorem jnzJumpsWhenAIsNotZero : Obligations.JnzJumpsWhenAIsNotZero :=
  ⟨fun o _ h => exec_jnz_of_ne_zero o h, fun o _ h => exec_jnz_of_eq_zero o h, decodeTableWord_elems 3⟩

end Sys2Proof.Machine
end

section
/-! SUPPORT. The output instruction of 43_output.md: O32. -/

namespace Sys2Proof.Machine

/-- The low element over numbers: the remainder by 8 (43_output.md R80). -/
theorem lowElem_eq_ofNat_mod (v : Word) : lowElem v = BitVec.ofNat 3 (v.toNat % 8) := by
  rw [← lowElem_toNat, BitVec.ofNat_toNat, BitVec.setWidth_eq]

/-- The effect of out once its operand has the value `v`: only then is OUT looked at (43_output.md R80,
60_exceptions.md R92). -/
theorem exec_out_of_combo {o : Elem} {s : State} {v : Word} (h : combo o s = some v) :
    exec (.out o) s =
      if s.outFull then .next (s.trap .outputOverflow) else .next (s.pushOut (lowElem v)).advance :=
  withCombo_some h _

/-- out with room in OUT appends the low element and advances (43_output.md R80). -/
theorem exec_out_of_not_full {o : Elem} {s : State} {v : Word} (h : combo o s = some v)
    (room : s.outCap ≠ some s.out.length) : exec (.out o) s = .next (s.pushOut (lowElem v)).advance := by
  have notFull : ¬ s.outFull = true := fun full => room ((outFull_iff s).1 full)
  rw [exec_out_of_combo h, if_neg notFull]

/-- out with a full OUT takes the OutputOverflow trap (43_output.md R80, 60_exceptions.md R90). -/
theorem exec_out_of_full {o : Elem} {s : State} {v : Word} (h : combo o s = some v)
    (full : s.outCap = some s.out.length) : exec (.out o) s = .next (s.trap .outputOverflow) := by
  rw [exec_out_of_combo h, if_pos ((outFull_iff s).2 full)]

/-- Settles O32: an operand other than 7 has a value, and then OUT has room or is full; the reserved forms trap whatever
OUT holds. -/
theorem outAppendsTheLowThreeBits : Obligations.OutAppendsTheLowThreeBits := by
  refine ⟨fun o s h room => ?_, fun o s h full => ?_, fun s i hi => ?_, decodeTableWord_elems 5⟩
  · obtain ⟨v, hv⟩ := combo_some_of_ne o s h
    refine ⟨v, hv, ?_⟩
    rw [exec_out_of_not_full hv room, lowElem_eq_ofNat_mod]
    rfl
  · obtain ⟨v, hv⟩ := combo_some_of_ne o s h
    exact exec_out_of_full hv full
  · have reserved : isReserved i = true := by rcases hi with rfl | rfl <;> rfl
    exact exec_of_isReserved reserved s

end Sys2Proof.Machine
end

section
/-! SUPPORT. The traps of 60_exceptions.md: O35. -/

namespace Sys2Proof.Machine

/-- A RUNNING core with a whole pair before the end of the program executes the pair it fetched
(30_encoding.md R55, R57). -/
theorem step_of_pair {s : State} (hr : s.runState = .running) (pairFits : s.ip + 2 ≤ s.plen) :
    step s = exec (decodeElems (s.mem.read s.ip) (s.mem.read (s.ip + 1))) s := by
  rcases step_running_cases hr with ⟨atEnd, -⟩ | ⟨truncated, -⟩ | ⟨-, e⟩
  · omega
  · omega
  · exact e

/-- A trapping step takes one of three traps, each with its condition on IP, the fetched elements and OUT
(60_exceptions.md R85). -/
theorem step_trap_cases {s t : State} (hr : s.runState = .running) (h : step s = .next t)
    (trapped : t.runState = .trapped) :
    (s.ip + 1 = s.plen ∧ t = s.trap .truncatedFetch) ∨
    (s.ip + 2 ≤ s.plen ∧ comboOpcode (s.mem.read s.ip) = true ∧ s.mem.read (s.ip + 1) = 7 ∧
      t = s.trap .invalidOperand) ∨
    (s.ip + 2 ≤ s.plen ∧ s.mem.read s.ip = 5 ∧ s.mem.read (s.ip + 1) ≠ 7 ∧ s.outFull = true ∧
      t = s.trap .outputOverflow) := by
  rcases step_elem_cases hr with ⟨-, e⟩ | ⟨truncated, e⟩ | ⟨pairFits, combo, seven, e⟩ | ⟨pairFits, notReserved, run⟩
  · cases h.symm.trans e
    cases trapped
  · cases h.symm.trans e
    exact .inl ⟨truncated, rfl⟩
  · cases h.symm.trans e
    exact .inr (.inl ⟨pairFits, combo, seven, rfl⟩)
  · have goesOn {u : State} (e : step s = .next u) (running : u.runState = s.runState) : False := by
      cases h.symm.trans e
      simp [running, hr] at trapped
    rcases run with ⟨r, v, e⟩ | ⟨-, -, e⟩ | ⟨-, -, e⟩ | ⟨-, -, v, -, e⟩ | ⟨out, full, e⟩
    · exact (goesOn e (by simp)).elim
    · exact (goesOn e (by simp)).elim
    · exact (goesOn e (by simp)).elim
    · exact (goesOn e (by simp)).elim
    · cases h.symm.trans e
      exact .inr (.inr ⟨pairFits, out, fun seven => notReserved ⟨by rw [out]; rfl, seven⟩, full, rfl⟩)

/-- Settles O35: a combo-class opcode with operand 7 decodes to a reserved instruction, which traps; and of the three
traps a step can take, only that one has the code. -/
theorem invalidOperandExactlyOnReservedWords : Obligations.InvalidOperandExactlyOnReservedWords := by
  refine ⟨fun s hr pairFits combo seven => ?_, fun s t hr h trapped code => ?_⟩
  · have reserved := (isReserved_decodeElems_iff _ _).2 ⟨combo, seven⟩
    rw [step_of_pair hr pairFits, exec_of_isReserved reserved, State.trap]
  · rcases step_trap_cases hr h trapped with ⟨-, rfl⟩ | ⟨pairFits, combo, seven, -⟩ | ⟨-, -, -, -, rfl⟩
    · cases code
    · exact ⟨pairFits, combo, seven⟩
    · cases code

end Sys2Proof.Machine
end

section
/-! SUPPORT. What a step can do, in the terms the statements about whole steps use: the decoded pair, the three ways a
step of a RUNNING core goes, and the program it leaves as it was: O8 to O12, O39 and O41. -/

namespace Sys2Proof.Machine

/-! ## The instruction of a pair -/

/-- The instruction of an opcode with its raw operand, operand 7 included; the decoder splits the reserved rows off
(30_encoding.md R50, R51). -/
def opcodeRow (opcode operand : Elem) : Instr :=
  match opcode.toNat with
  | 0 => .adv operand
  | 1 => .bxl operand
  | 2 => .bst operand
  | 3 => .jnz operand
  | 4 => .bxc operand
  | 5 => .out operand
  | 6 => .bdv operand
  | _ => .cdv operand

/-- The decoder answers the opcode's own row, or both that row and its answer are reserved (30_encoding.md R51). -/
theorem decodeElems_eq_opcodeRow_or_reserved : ∀ opcode operand : Elem,
    decodeElems opcode operand = opcodeRow opcode operand ∨
      (isReserved (decodeElems opcode operand) = true ∧ isReserved (opcodeRow opcode operand) = true) := by decide

/-- The reserved rows mean what their opcode means with operand 7, so a decoded pair has the meaning of the opcode's row
(60_exceptions.md R86). -/
theorem exec_decodeElems (opcode operand : Elem) (s : State) :
    exec (decodeElems opcode operand) s = exec (opcodeRow opcode operand) s := by
  rcases decodeElems_eq_opcodeRow_or_reserved opcode operand with same | ⟨reserved, reservedRow⟩
  · rw [same]
  · rw [exec_of_isReserved reserved, exec_of_isReserved reservedRow]

/-! ## The program is left as it was -/

/-- Two states hold the same program with the same OUT_CAP: the parameters of a run (10_state.md R10). -/
structure State.SameProgram (s t : State) : Prop where
  mem : t.mem = s.mem
  plen : t.plen = s.plen
  outCap : t.outCap = s.outCap

theorem State.SameProgram.refl (s : State) : s.SameProgram s := ⟨rfl, rfl, rfl⟩

theorem State.SameProgram.trans {s t u : State} (h : s.SameProgram t) (h' : t.SameProgram u) : s.SameProgram u :=
  ⟨h'.mem.trans h.mem, h'.plen.trans h.plen, h'.outCap.trans h.outCap⟩

/-- The loaded program as a sequence depends on the memory and PLEN alone (20_memory.md R30). -/
theorem State.SameProgram.tape {s t : State} (h : s.SameProgram t) : t.tape = s.tape := by
  rw [State.tape, State.tape, h.mem, h.plen]

/-- Every instruction answers a next state over the same program (20_memory.md R30). -/
theorem exec_next_sameProgram (i : Instr) (s : State) : ∃ t, exec i s = .next t ∧ s.SameProgram t := by
  rcases exec_cases i s with ⟨-, -, r, v, -, e⟩ | ⟨-, o, -, -, e⟩ | ⟨-, o, -, -, e⟩ | ⟨-, o, v, -, -, -, e⟩ |
    ⟨-, o, -, -, e⟩ | ⟨-, e⟩
  · exact ⟨_, e, by simp, by simp, by simp⟩
  · exact ⟨_, e, rfl, rfl, rfl⟩
  · exact ⟨_, e, rfl, rfl, rfl⟩
  · exact ⟨_, e, rfl, rfl, rfl⟩
  · exact ⟨_, e, rfl, rfl, rfl⟩
  · exact ⟨_, e, rfl, rfl, rfl⟩

/-- The step of a RUNNING core answers a next state over the same program (20_memory.md R30). -/
theorem step_running_next_sameProgram {s : State} (hr : s.runState = .running) :
    ∃ t, step s = .next t ∧ s.SameProgram t := by
  rcases step_running_cases hr with ⟨-, e⟩ | ⟨-, e⟩ | ⟨-, e⟩
  · exact ⟨_, e, rfl, rfl, rfl⟩
  · exact ⟨_, e, rfl, rfl, rfl⟩
  · rw [e]
    exact exec_next_sameProgram _ s

/-- Every step that answers a state leaves the program as it was. -/
theorem step_sameProgram {s t : State} (h : step s = .next t) : s.SameProgram t := by
  by_cases hr : s.runState = .running
  · obtain ⟨u, hu, same⟩ := step_running_next_sameProgram hr
    cases hu.symm.trans h
    exact same
  · obtain ⟨-, rfl⟩ := step_idle_next hr h
    exact .refl _

/-- Every run that answers a state leaves the program as it was. -/
theorem run_sameProgram {k : Nat} {s t : State} (h : Sys2Proof.core.run k s = .next t) : s.SameProgram t :=
  run_keeps (P := s.SameProgram) (fun _ _ same hstep => same.trans (step_sameProgram hstep)) k s t (.refl s) h

/-- Settles O41: what an instruction leaves, every run leaves. -/
theorem programIsReadOnly : Obligations.ProgramIsReadOnly := by
  refine ⟨fun i s => ?_, fun n s t h => ?_⟩
  · obtain ⟨t, e, same⟩ := exec_next_sameProgram i s
    exact ⟨t, e, fun k => by rw [same.mem], same.mem, same.plen, same.outCap⟩
  · have same := run_sameProgram h
    exact ⟨fun k => by rw [same.mem], same.mem, same.plen, same.outCap⟩

/-! ## How a step goes -/

/-- The three ways a step of a RUNNING core goes: it halts, it traps, or it goes on (60_exceptions.md R100). -/
theorem step_outcome {s : State} (hr : s.runState = .running) :
    (s.plen ≤ s.ip ∧ step s = .next s.halt) ∨
    (s.ip < s.plen ∧ ∃ code, code ≠ .none ∧ step s = .next (s.trap code)) ∨
    (s.ip < s.plen ∧ ∃ t, step s = .next t ∧ t.runState = .running ∧ t.cause = s.cause) := by
  rcases step_elem_cases hr with ⟨atEnd, e⟩ | ⟨truncated, e⟩ | ⟨pairFits, -, -, e⟩ | ⟨pairFits, -, run⟩
  · exact .inl ⟨atEnd, e⟩
  · exact .inr (.inl ⟨by omega, _, by decide, e⟩)
  · exact .inr (.inl ⟨by omega, _, by decide, e⟩)
  · have inside : s.ip < s.plen := by omega
    rcases run with ⟨r, v, e⟩ | ⟨-, -, e⟩ | ⟨-, -, e⟩ | ⟨-, -, v, -, e⟩ | ⟨-, -, e⟩
    · exact .inr (.inr ⟨inside, _, e, by simp [hr], by simp⟩)
    · exact .inr (.inr ⟨inside, _, e, hr, rfl⟩)
    · exact .inr (.inr ⟨inside, _, e, hr, rfl⟩)
    · exact .inr (.inr ⟨inside, _, e, hr, rfl⟩)
    · exact .inr (.inl ⟨inside, _, by decide, e⟩)

/-- A step of a RUNNING core that answers `t` has halted, trapped or gone on to `t`. -/
theorem step_outcome_of_next {s t : State} (hr : s.runState = .running) (h : step s = .next t) :
    (s.plen ≤ s.ip ∧ t = s.halt) ∨ (∃ code, code ≠ .none ∧ t = s.trap code) ∨
      (t.runState = .running ∧ t.cause = s.cause) := by
  rcases step_outcome hr with ⟨atEnd, e⟩ | ⟨-, code, hcode, e⟩ | ⟨-, u, e, running, cause⟩
  · cases h.symm.trans e
    exact .inl ⟨atEnd, rfl⟩
  · cases h.symm.trans e
    exact .inr (.inl ⟨code, hcode, rfl⟩)
  · cases h.symm.trans e
    exact .inr (.inr ⟨running, cause⟩)

/-- A fetch at or past PLEN halts (60_exceptions.md R95). -/
theorem step_of_atEnd {s : State} (hr : s.runState = .running) (atEnd : s.plen ≤ s.ip) : step s = .next s.halt := by
  rcases step_running_cases hr with ⟨-, e⟩ | ⟨truncated, -⟩ | ⟨pairFits, -⟩
  · exact e
  · omega
  · omega

/-- A lone opcode element before PLEN takes TruncatedFetch (60_exceptions.md R88). -/
theorem step_of_truncated {s : State} (hr : s.runState = .running) (truncated : s.ip + 1 = s.plen) :
    step s = .next (s.trap .truncatedFetch) := by
  rcases step_running_cases hr with ⟨atEnd, -⟩ | ⟨-, e⟩ | ⟨pairFits, -⟩
  · omega
  · exact e
  · omega

/-- HALTED holds all state (70_reset_and_hazards.md R114). -/
theorem step_of_halted {s : State} (halted : s.runState = .halted) : step s = .next s := by
  rw [step_idle (by simp [halted])]
  simp [idle, halted]

/-- A fetched out with a full OUT takes OutputOverflow, once its operand has a value (60_exceptions.md R90, R92). -/
theorem step_of_out_full {s : State} (hr : s.runState = .running) (pairFits : s.ip + 2 ≤ s.plen)
    (out : s.mem.read s.ip = 5) (notSeven : s.mem.read (s.ip + 1) ≠ 7) (full : s.outCap = some s.out.length) :
    step s = .next (s.trap .outputOverflow) := by
  obtain ⟨v, hv⟩ := combo_some_of_ne (s.mem.read (s.ip + 1)) s notSeven
  rw [step_of_pair hr pairFits, exec_decodeElems, out]
  exact exec_out_of_full hv full

/-- Settles O8: the fetch at the end halts, and of the three ways a step goes only the halt ends in HALTED. -/
theorem haltExactlyPastTheEnd : Obligations.HaltExactlyPastTheEnd := by
  refine ⟨fun s hr atEnd => step_of_atEnd hr atEnd, fun s t hr h halted => ?_⟩
  rcases step_outcome_of_next hr h with ⟨atEnd, rfl⟩ | ⟨code, -, rfl⟩ | ⟨running, -⟩
  · exact ⟨atEnd, fun noCause => ⟨rfl, noCause⟩⟩
  · cases halted
  · cases running.symm.trans halted

/-- Settles O9: the fetch of a lone opcode element, whatever it is. -/
theorem loneOpcodeTrapsTruncatedFetch : Obligations.LoneOpcodeTrapsTruncatedFetch :=
  fun _ hr truncated => step_of_truncated hr truncated

/-- Settles O10: the conditions of the chain are those of the cases of a step, read in the order of R92. -/
theorem everyRunningStepHasItsOutcome : Obligations.EveryRunningStepHasItsOutcome := by
  intro s hr
  rcases step_elem_cases hr with ⟨atEnd, e⟩ | ⟨truncated, e⟩ | ⟨pairFits, combo, seven, e⟩ |
    ⟨pairFits, notReserved, run⟩
  · rw [if_pos atEnd]
    exact e
  · rw [if_neg (by omega), if_pos truncated]
    exact e
  · rw [if_neg (by omega), if_neg (by omega), if_pos ⟨combo, seven⟩]
    exact e
  · rw [if_neg (by omega), if_neg (by omega), if_neg notReserved]
    by_cases full : s.mem.read s.ip = 5 ∧ s.outCap = some s.out.length
    · rw [if_pos full]
      exact step_of_out_full hr pairFits full.1 (fun seven => notReserved ⟨by rw [full.1]; rfl, seven⟩) full.2
    · rw [if_neg full]
      rcases run with ⟨r, v, e⟩ | ⟨-, -, e⟩ | ⟨-, -, e⟩ | ⟨-, -, v, -, e⟩ | ⟨out, isFull, -⟩
      · exact ⟨_, e, by simp [hr], by simp⟩
      · exact ⟨_, e, hr, rfl⟩
      · exact ⟨_, e, hr, rfl⟩
      · exact ⟨_, e, hr, rfl⟩
      · exact absurd ⟨out, (outFull_iff s).1 isFull⟩ full

/-- Settles O11: the step of a core that is not RUNNING is the idle step, by the run state. -/
theorem stoppedCoreTakesNoInstruction : Obligations.StoppedCoreTakesNoInstruction := by
  refine ⟨fun _ h => step_of_halted h, fun s h => ?_, fun s h => ?_⟩
  all_goals
    rw [step_idle (by simp [h])]
    simp [idle, h]

/-- Settles O12: a RUNNING core answers a next state, and the idle step is no refusal. -/
theorem noStepIsRefused : Obligations.NoStepIsRefused := by
  intro s r h
  by_cases hr : s.runState = .running
  · obtain ⟨t, e, -⟩ := step_running_next_sameProgram hr
    cases e.symm.trans h
  · rw [step_idle hr] at h
    cases hs : s.runState <;> simp [idle, hs] at h

/-- Settles O39: the three ways a step of a RUNNING core goes; a core that is not RUNNING steps only when HALTED. -/
theorem runStateTransitions : Obligations.RunStateTransitions := by
  intro s t h
  by_cases hr : s.runState = .running
  · rcases step_outcome_of_next hr h with ⟨-, rfl⟩ | ⟨code, -, rfl⟩ | ⟨running, cause⟩
    · exact .inr (.inl ⟨hr, rfl, rfl⟩)
    · exact .inr (.inr (.inl ⟨hr, rfl⟩))
    · exact .inl ⟨hr, running, cause⟩
  · exact .inr (.inr (.inr (step_idle_next hr h)))

end Sys2Proof.Machine
end

section
/-! SUPPORT. The step over natural numbers (30_encoding.md R57, 10_state.md R12): O13 and O14. -/

namespace Sys2Proof.Machine

/-- An outcome is a next state whose items, read as natural numbers, are `r`. -/
def Refines (o : Outcome) (r : RefState) : Prop := ∃ t, o = .next t ∧ t.toRef = r

theorem refines_next {t : State} {r : RefState} (h : t.toRef = r) : Refines (.next t) r := ⟨t, rfl, h⟩

/-- Taking a trap commutes with the reading as numbers (60_exceptions.md R93). -/
theorem refines_trap (s : State) (code : Cause) : Refines (.next (s.trap code)) (s.toRef.trap code) :=
  refines_next rfl

/-- A combo operand has the same value in both readings, and 7 has none in either (30_encoding.md R49). -/
theorem refCombo_toRef (operand : Elem) (s : State) :
    refCombo operand.toNat s.toRef = (combo operand s).map BitVec.toNat := by
  rcases elem_cases operand with rfl | rfl | rfl | rfl | rfl | rfl | rfl | rfl <;> rfl

/-- Resolving a combo operand refines when going on with its value does. -/
theorem refines_withCombo {operand : Elem} {s : State} {go : Word → Outcome} {refGo : Nat → RefState}
    (h : ∀ v : Word, Refines (go v) (refGo v.toNat)) :
    Refines (withCombo operand s go) (refWithCombo operand.toNat s.toRef refGo) := by
  rw [withCombo, refWithCombo, refCombo_toRef]
  cases combo operand s with
  | none => exact refines_trap s .invalidOperand
  | some v => exact h v

/-- OUT has the same length in both readings, so it is full in both or in neither (43_output.md R80). -/
theorem outFull_iff_toRef (s : State) : s.outFull = true ↔ s.outCap = some s.toRef.out.length := by
  rw [outFull_iff, State.toRef, List.length_map]

/-- out refines once its operand has a value: it traps or appends in both readings (43_output.md R80). -/
theorem refines_out_of_value (s : State) (v : Word) :
    Refines (if s.outFull then raise .outputOverflow s else .next (s.pushOut (lowElem v)).advance)
      (if s.outCap = some s.toRef.out.length then s.toRef.trap .outputOverflow
       else { s.toRef with out := s.toRef.out ++ [v.toNat % 8], ip := s.toRef.ip + 2 }) := by
  by_cases full : s.outFull = true
  · rw [if_pos full, if_pos ((outFull_iff_toRef s).1 full)]
    exact refines_trap s .outputOverflow
  · rw [if_neg full, if_neg (mt (outFull_iff_toRef s).2 full)]
    exact refines_next (by simp [State.toRef, lowElem_toNat])

/-- jnz tests the same condition in both readings (42_control_transfer.md R75). -/
theorem refines_jnz (operand : Elem) (s : State) :
    Refines (exec (.jnz operand) s)
      (if s.toRef.a ≠ 0 then { s.toRef with ip := operand.toNat } else { s.toRef with ip := s.toRef.ip + 2 }) := by
  by_cases zero : s.a = 0
  · rw [exec_jnz_of_eq_zero operand zero, if_neg (by simp [State.toRef, zero])]
    exact refines_next rfl
  · have notZero : s.toRef.a ≠ 0 := fun h => zero (BitVec.eq_of_toNat_eq h)
    rw [exec_jnz_of_ne_zero operand zero, if_pos notZero]
    exact refines_next rfl

/-- Each opcode's instruction refines its arm of R57's case distinction. -/
theorem refines_exec_opcodeRow (opcode operand : Elem) (s : State) :
    Refines (exec (opcodeRow opcode operand) s) (refExec s.outCap opcode.toNat operand.toNat s.toRef) := by
  rcases elem_cases opcode with rfl | rfl | rfl | rfl | rfl | rfl | rfl | rfl
  · exact refines_withCombo fun v => refines_next (by simp [State.toRef, shr_toNat])
  · exact refines_next (by simp [State.toRef, refExec, lit_toNat])
  · exact refines_withCombo fun v => refines_next (by simp [State.toRef, andSeven_toNat])
  · exact refines_jnz operand s
  · exact refines_next (by simp [State.toRef, refExec])
  · exact refines_withCombo (refines_out_of_value s)
  · exact refines_withCombo fun v => refines_next (by simp [State.toRef, shr_toNat])
  · exact refines_withCombo fun v => refines_next (by simp [State.toRef, shr_toNat])

theorem length_tape (s : State) : s.tape.length = s.plen := by simp [State.tape]

/-- The program over numbers has PLEN elements. -/
theorem length_tape_toNat (s : State) : (s.tape.map BitVec.toNat).length = s.plen := by simp [length_tape]

/-- The program over numbers holds what the memory reads as, at every index inside the program (20_memory.md R31). -/
theorem tape_toNat_getD (s : State) {i : Nat} (h : i < s.plen) :
    (s.tape.map BitVec.toNat).getD i 0 = (s.mem.read i).toNat := by
  simp [State.tape, h]

/-- The step of a RUNNING core refines the step over numbers of its program. -/
theorem refines_step {s : State} (hr : s.runState = .running) :
    Refines (step s) (refStep (s.tape.map BitVec.toNat) s.outCap s.toRef) := by
  have ip : s.toRef.ip = s.ip := rfl
  rw [refStep, length_tape_toNat, ip]
  rcases step_running_cases hr with ⟨atEnd, e⟩ | ⟨truncated, e⟩ | ⟨pairFits, e⟩
  · rw [e, if_pos atEnd]
    exact refines_next rfl
  · rw [e, if_neg (by omega), if_pos truncated]
    exact refines_trap s .truncatedFetch
  · rw [e, if_neg (by omega), if_neg (by omega), tape_toNat_getD s (by omega), tape_toNat_getD s (by omega),
      exec_decodeElems]
    exact refines_exec_opcodeRow _ _ s

/-- A run over numbers that is not RUNNING has ended (30_encoding.md R57). -/
theorem refRun_of_not_running (prog : List Nat) (cap : Option Nat) (k : Nat) {r : RefState}
    (h : r.runState ≠ .running) : refRun prog cap k r = r := by
  cases k with
  | zero => rfl
  | succ k => rw [refRun, if_neg h]

/-- Settles O13: fetch agrees on the program as a list, and each opcode's instruction refines its arm. -/
theorem stepAgreesWithNaturalNumbers : Obligations.StepAgreesWithNaturalNumbers :=
  fun _ hr => refines_step hr

/-- Settles O14: by induction on the number of steps; a step keeps the program and OUT_CAP, and once the run has ended
both views stay. -/
theorem runAgreesWithNaturalNumbers : Obligations.RunAgreesWithNaturalNumbers := by
  intro k
  induction k with
  | zero =>
    intro s t h
    cases h
    rfl
  | succ k ih =>
    intro s t h
    obtain ⟨u, hu, hrest⟩ := run_succ_inv h
    by_cases hr : s.runState = .running
    · obtain ⟨u', hu', refined⟩ := refines_step hr
      cases hu.symm.trans hu'
      have same := step_sameProgram hu
      have running : s.toRef.runState = .running := hr
      rw [refRun, if_pos running, ← refined, ih u t hrest, same.tape, same.outCap]
    · obtain ⟨-, rfl⟩ := step_idle_next hr hu
      have ended : u.toRef.runState ≠ .running := hr
      rw [ih u t hrest, refRun_of_not_running _ _ _ ended, refRun_of_not_running _ _ _ ended]

end Sys2Proof.Machine
end

section
/-! SUPPORT. The encoding of 30_encoding.md: O1, O2, O3, O4, O5, O6 and O7. -/

namespace Sys2Proof.Machine

/-- A well-formed instruction is the one its two elements decode to (30_encoding.md R50, R51). -/
theorem decodeElems_opcode_operand {i : Instr} (h : i.wellFormed = true) : decodeElems i.opcode i.operand = i := by
  cases i with
  | adv o | bst o | out o | bdv o | cdv o =>
    have notSeven : o ≠ 7 := bne_iff_ne.1 h
    exact if_neg notSeven
  | bxl | jnz | bxc | adv7 | bst7 | out7 | bdv7 | cdv7 => rfl

/-- What two elements decode to is well-formed and has these two elements (30_encoding.md R51, R54). -/
theorem decodeElems_wellFormed_opcode_operand : ∀ opcode operand : Elem,
    (decodeElems opcode operand).wellFormed = true ∧ (decodeElems opcode operand).opcode = opcode ∧
      (decodeElems opcode operand).operand = operand := by decide

/-- Two elements at the front of a tape decode, whatever follows them (30_encoding.md R54). -/
theorem decode_elems (opcode operand : Elem) (rest : List Nat) :
    decode (opcode.toNat :: operand.toNat :: rest) = .ok (decodeElems opcode operand, rest) := by
  simp only [decode, decodePair_elems]

/-- A pair of numbers that decodes is a pair of elements (30_encoding.md R52). -/
theorem decodePair_eq_ok {x y : Nat} {i : Instr} (h : decodePair x y = .ok i) :
    ∃ opcode operand : Elem, x = opcode.toNat ∧ y = operand.toNat ∧ i = decodeElems opcode operand := by
  unfold decodePair at h
  split_ifs at h with hx hy
  cases h
  refine ⟨BitVec.ofNat 3 x, BitVec.ofNat 3 y, ?_, ?_, rfl⟩
  · rw [BitVec.toNat_ofNat, Nat.mod_eq_of_lt (by omega)]
  · rw [BitVec.toNat_ofNat, Nat.mod_eq_of_lt (by omega)]

/-- A tape that decodes starts with two elements, and they decode to the answer (20_memory.md R32). -/
theorem decode_eq_ok {xs rest : List Nat} {i : Instr} (h : decode xs = .ok (i, rest)) :
    ∃ opcode operand : Elem, xs = opcode.toNat :: operand.toNat :: rest ∧ i = decodeElems opcode operand := by
  match xs with
  | [] => cases h
  | [_] => cases h
  | x :: y :: tail =>
    cases hp : decodePair x y with
    | error e => simp [decode, hp] at h
    | ok j =>
      simp only [decode, hp] at h
      cases h
      obtain ⟨opcode, operand, rfl, rfl, rfl⟩ := decodePair_eq_ok hp
      exact ⟨opcode, operand, rfl, rfl⟩

/-- A table word that decodes is the packed word of two elements, and they decode to the answer
(30_encoding.md R46). -/
theorem decodeTableWord_eq_some {nbits w : Nat} {i : Instr} (h : decodeTableWord nbits w = some i) :
    ∃ opcode operand : Elem, w / 8 = opcode.toNat ∧ w % 8 = operand.toNat ∧ i = decodeElems opcode operand := by
  unfold decodeTableWord at h
  split_ifs at h
  split at h
  · rename_i j hdecode
    cases h
    obtain ⟨opcode, operand, elems, rfl⟩ := decode_eq_ok hdecode
    simp only [unpackWord, List.cons.injEq, and_true] at elems
    exact ⟨opcode, operand, elems.1, elems.2, rfl⟩
  · cases h

/-- The packed word of a well-formed instruction decodes to it (30_encoding.md R46, R51). -/
theorem decodeTableWord_encodeWord {i : Instr} (h : i.wellFormed = true) :
    decodeTableWord 8 (encodeWord i) = some i := by
  rw [encodeWord, decodeTableWord_elems, decodeElems_opcode_operand h]

/-- Settles O1: the encoding is two elements, and a well-formed instruction is what they decode to. -/
theorem decodeOfEncodeIsTheInstruction : Obligations.DecodeOfEncodeIsTheInstruction := by
  intro i rest h
  rw [encode, List.cons_append, List.cons_append, List.nil_append, decode_elems, decodeElems_opcode_operand h]

/-- Settles O2: the tape starts with two elements, which are those of the instruction they decode to. -/
theorem decodedTapeIsTheEncoding : Obligations.DecodedTapeIsTheEncoding := by
  intro xs i rest h
  obtain ⟨opcode, operand, rfl, rfl⟩ := decode_eq_ok h
  obtain ⟨wellFormed, hopcode, hoperand⟩ := decodeElems_wellFormed_opcode_operand opcode operand
  refine ⟨wellFormed, ?_⟩
  rw [encode, hopcode, hoperand]
  rfl

/-- Settles O3: a word below 64 is the packed word of two elements; a well-formed instruction with that word decodes
from it, so there is only one. -/
theorem everyPackedWordDecodesOnce : Obligations.EveryPackedWordDecodesOnce := by
  refine ⟨fun w hw => ?_, rfl, rfl, rfl, rfl, rfl⟩
  obtain ⟨opcode, operand, rfl⟩ : ∃ opcode operand : Elem, w = 8 * opcode.toNat + operand.toNat :=
    ⟨BitVec.ofNat 3 (w / 8), BitVec.ofNat 3 (w % 8), by simp only [BitVec.toNat_ofNat]; omega⟩
  obtain ⟨wellFormed, hopcode, hoperand⟩ := decodeElems_wellFormed_opcode_operand opcode operand
  refine ⟨decodeElems opcode operand, decodeTableWord_elems opcode operand, wellFormed, ?_, fun j hj hword => ?_⟩
  · rw [encodeWord, hopcode, hoperand]
  · have decoded := decodeTableWord_encodeWord hj
    rw [hword, decodeTableWord_elems] at decoded
    exact (Option.some.inj decoded).symm

/-- Settles O4: each word is the packed word of its opcode and operand. -/
theorem writtenOutWordsDecode : Obligations.WrittenOutWordsDecode :=
  ⟨decodeTableWord_elems 0 3, decodeTableWord_elems 6 5, decodeTableWord_elems 7 6, decodeTableWord_elems 1 7,
   decodeTableWord_elems 2 4, decodeTableWord_elems 4 7, decodeTableWord_elems 3 6, decodeTableWord_elems 5 4⟩

/-- Settles O5: the checks of a pair, in their order. -/
theorem decoderRefusesByName : Obligations.DecoderRefusesByName := by
  refine ⟨rfl, fun _ => rfl, fun x y rest hx => ?_, fun x y rest hx hy => ?_⟩
  · have refused : decodePair x y = .error .unknownOpcode := if_pos hx
    simp only [decode, refused]
  · have refused : decodePair x y = .error .operandOutOfRange := by
      rw [decodePair, if_neg (by omega), if_pos hy]
    simp only [decode, refused]

/-- Settles O6: the fetched pair is what the step executes, and two elements have one decoding. -/
theorem stepRunsTheDecodedInstruction : Obligations.StepRunsTheDecodedInstruction := by
  intro s i hr pairFits _ h
  rw [decode_elems] at h
  cases h
  exact step_of_pair hr pairFits

/-- The fetch aid's word stands as two elements at IP, for a memory in canonical form (30_encoding.md R46). -/
theorem storeAtIp_reads {s : State} (wf : s.mem.wf = true) (w : Nat) :
    (storeAtIp s w).mem.read s.ip = BitVec.ofNat 3 (w / 8) ∧
      (storeAtIp s w).mem.read (s.ip + 1) = BitVec.ofNat 3 (w % 8) := by
  rw [storeAtIp_mem]
  refine ⟨?_, ?_⟩
  · rw [Memory.read_write_other _ _ _ _ (by omega), Memory.read_write_same _ _ _ wf]
  · exact Memory.read_write_same _ _ _ (Memory.wf_write _ _ _ wf)

/-- Settles O7: the word stands at IP inside the program, so the step fetches and executes it. -/
theorem fetchWordIsTheNextInstruction : Obligations.FetchWordIsTheNextInstruction := by
  intro s w i wf h
  obtain ⟨opcode, operand, hopcode, hoperand, rfl⟩ := decodeTableWord_eq_some h
  obtain ⟨readOpcode, readOperand⟩ := storeAtIp_reads wf w
  have pairFits : (storeAtIp s w).ip + 2 ≤ (storeAtIp s w).plen := by simp
  rw [State.withFetchWord, step_of_pair rfl pairFits, storeAtIp_ip, readOpcode, readOperand, hopcode, hoperand,
    BitVec.ofNat_toNat, BitVec.ofNat_toNat, BitVec.setWidth_eq, BitVec.setWidth_eq]

end Sys2Proof.Machine
end

section
/-! SUPPORT. The invariant of a launched core and the safety of well-formed programs: O42, O43, O44 and O45. -/

namespace Sys2Proof.Machine

/-! ## The invariant -/

/-- The invariant's clauses about the program hold wherever the program is the same; the others are about the items
that a run changes. -/
theorem State.Inv.of_sameProgram {s t : State} (inv : s.Inv) (same : s.SameProgram t)
    (launched : t.runState ≠ .unlaunched) (ipBound : t.runState = .running → t.ip ≤ max s.plen 7)
    (causeMatches : t.cause ≠ .none ↔ t.runState = .trapped)
    (outFits : ∀ n, s.outCap = some n → t.out.length ≤ n) : t.Inv where
  launched := launched
  memWf := by rw [same.mem]; exact inv.memWf
  memBelow := by rw [same.mem, same.plen]; exact inv.memBelow
  plenFits := by rw [same.plen]; exact inv.plenFits
  ipBound := by rw [same.plen]; exact ipBound
  causeMatches := causeMatches
  outFits := by rw [same.outCap]; exact outFits

/-- While RUNNING no trap has happened (10_state.md R19). -/
theorem State.Inv.cause_eq_none {s : State} (inv : s.Inv) (hr : s.runState = .running) : s.cause = .none := by
  by_contra caused
  cases hr.symm.trans (inv.causeMatches.1 caused)

/-- The halt keeps the invariant (60_exceptions.md R95). -/
theorem State.Inv.halt {s : State} (inv : s.Inv) (hr : s.runState = .running) : s.halt.Inv :=
  inv.of_sameProgram ⟨rfl, rfl, rfl⟩ nofun nofun (by simp [inv.cause_eq_none hr]) inv.outFits

/-- A trap with a code other than 0 keeps the invariant (60_exceptions.md R93). -/
theorem State.Inv.trap {s : State} (inv : s.Inv) {code : Cause} (hcode : code ≠ .none) : (s.trap code).Inv :=
  inv.of_sameProgram ⟨rfl, rfl, rfl⟩ nofun nofun (by simp [hcode]) inv.outFits

/-- A step that goes on keeps the invariant when its IP and its OUT keep their bounds. -/
theorem State.Inv.goesOn {s t : State} (inv : s.Inv) (hr : s.runState = .running) (same : s.SameProgram t)
    (running : t.runState = s.runState) (cause : t.cause = s.cause) (ipBound : t.ip ≤ max s.plen 7)
    (outFits : ∀ n, s.outCap = some n → t.out.length ≤ n) : t.Inv :=
  inv.of_sameProgram same (by simp [running, hr]) (fun _ => ipBound)
    (by simp [running, hr, cause, inv.cause_eq_none hr]) outFits

/-- There is room for one more element when OUT is within OUT_CAP and not full (10_state.md R17). -/
theorem length_pushOut_le {s : State} (outFits : ∀ n, s.outCap = some n → s.out.length ≤ n) (room : s.outFull = false)
    (v : Elem) : ∀ n, s.outCap = some n → (s.pushOut v).out.length ≤ n := by
  intro n cap
  have notFull : n ≠ s.out.length := by
    rintro rfl
    rw [(outFull_iff s).2 cap] at room
    cases room
  have fits := outFits n cap
  rw [pushOut_out, List.length_append, List.length_singleton]
  omega

/-- Settles O42: by the cases of a step. An advance starts from a pair inside the program, so it ends at most at PLEN; a
jump's literal is at most 7. -/
theorem stepKeepsInvariant : Obligations.StepKeepsInvariant := by
  intro s t inv h
  have same := step_sameProgram h
  by_cases hr : s.runState = .running
  · rcases step_elem_cases hr with ⟨-, e⟩ | ⟨-, e⟩ | ⟨-, -, -, e⟩ | ⟨pairFits, -, run⟩
    · cases h.symm.trans e
      exact inv.halt hr
    · cases h.symm.trans e
      exact inv.trap (by decide)
    · cases h.symm.trans e
      exact inv.trap (by decide)
    · have advanced : s.ip + 2 ≤ max s.plen 7 := by omega
      rcases run with ⟨r, v, e⟩ | ⟨-, -, e⟩ | ⟨-, -, e⟩ | ⟨-, room, v, -, e⟩ | ⟨-, -, e⟩
      · cases h.symm.trans e
        exact inv.goesOn hr same (by simp) (by simp) (by simpa using advanced) (by simpa using inv.outFits)
      · cases h.symm.trans e
        have literal := (s.mem.read (s.ip + 1)).isLt
        exact inv.goesOn hr same rfl rfl (by rw [jumpTo_ip]; omega) inv.outFits
      · cases h.symm.trans e
        exact inv.goesOn hr same rfl rfl advanced inv.outFits
      · cases h.symm.trans e
        exact inv.goesOn hr same rfl rfl advanced (length_pushOut_le inv.outFits room _)
      · cases h.symm.trans e
        exact inv.trap (by decide)
  · obtain ⟨-, rfl⟩ := step_idle_next hr h
    exact inv

/-- Settles O43: no program, IP 0, no trap, OUT empty and unbounded. -/
theorem resetHasInvariant : Obligations.ResetHasInvariant where
  launched := nofun
  memWf := reset_mem_wf
  memBelow := fun _ _ => rfl
  plenFits := Nat.zero_le _
  ipBound := fun _ => Nat.zero_le _
  causeMatches := by decide
  outFits := nofun

/-- A load outside a run keeps the invariant, for a tape that fits the program memory (20_memory.md R35, R39). -/
theorem State.Inv.loadTape {s : State} (inv : s.Inv) (hr : s.runState ≠ .running) {tape : List Elem}
    (fits : tape.length ≤ Config.plenMax) : (s.loadTape tape).Inv where
  launched := inv.launched
  memWf := Memory.wf_ofTape tape
  memBelow := fun i hi => (Memory.read_ofTape tape i).trans (List.getD_eq_default _ _ hi)
  plenFits := fits
  ipBound := fun running => absurd running hr
  causeMatches := inv.causeMatches
  outFits := inv.outFits

/-- A launch keeps the invariant, whatever the values (70_reset_and_hazards.md R105). -/
theorem State.Inv.launch {s : State} (inv : s.Inv) (a b c : Word) : (s.launch a b c).Inv :=
  inv.of_sameProgram ⟨rfl, rfl, rfl⟩ nofun (fun _ => Nat.zero_le _) (by simp) (fun n _ => Nat.zero_le n)

/-- Settles O44: the two moves that answer a state. -/
theorem hostMovesKeepInvariant : Obligations.HostMovesKeepInvariant := by
  intro m s t inv h
  rcases hostMove_cases h with ⟨tokens, -, hr, -, fits, rfl⟩ | ⟨a, b, c, -, -, -, -, rfl⟩
  · exact inv.loadTape hr (by rwa [List.length_map])
  · exact inv.launch _ _ _

/-! ## Well-formed programs -/

/-- Being well-formed is about the program alone (70_reset_and_hazards.md R106). -/
theorem State.ProgramWellFormed.of_sameProgram {s t : State} (program : s.ProgramWellFormed)
    (same : s.SameProgram t) : t.ProgramWellFormed where
  evenLength := by rw [same.plen]; exact program.evenLength
  evenJumps := by rw [same.mem, same.plen]; exact program.evenJumps
  noReserved := by rw [same.mem, same.plen]; exact program.noReserved

/-- What every state of a run of a well-formed program has, from an even IP with an unbounded OUT: it has not trapped,
its CAUSE is still `cause`, and the next fetch is at an even index. -/
structure State.OnCourse (cause : Cause) (s : State) : Prop where
  program : s.ProgramWellFormed
  causeKept : s.cause = cause
  ipEven : s.ip % 2 = 0
  unbounded : s.outCap = none
  active : s.runState = .running ∨ s.runState = .halted

/-- A state over the same program with the same CAUSE is on course when it is active at an even IP. -/
theorem State.OnCourse.of_sameProgram {cause : Cause} {s t : State} (course : s.OnCourse cause)
    (same : s.SameProgram t) (causeSame : t.cause = s.cause) (ipEven : t.ip % 2 = 0)
    (active : t.runState = .running ∨ t.runState = .halted) : t.OnCourse cause where
  program := course.program.of_sameProgram same
  causeKept := causeSame.trans course.causeKept
  ipEven := ipEven
  unbounded := same.outCap.trans course.unbounded
  active := active

/-- An unbounded OUT is never full (10_state.md R17). -/
theorem outFull_eq_false_of_unbounded {s : State} (unbounded : s.outCap = none) : s.outFull = false := by
  rw [State.outFull, unbounded]
  rfl

/-- Every step stays on course: an even IP before an even PLEN has a whole pair, and the pair is not reserved; an
unbounded OUT does not overflow, and jumps are to even indices. -/
theorem State.OnCourse.step {cause : Cause} {s : State} (course : s.OnCourse cause) :
    ∃ t, step s = .next t ∧ t.OnCourse cause := by
  have ipEven := course.ipEven
  rcases course.active with hr | halted
  · rcases step_elem_cases hr with ⟨-, e⟩ | ⟨truncated, -⟩ | ⟨pairFits, combo, seven, -⟩ | ⟨pairFits, -, run⟩
    · exact ⟨_, e, course.of_sameProgram ⟨rfl, rfl, rfl⟩ rfl ipEven (.inr rfl)⟩
    · have lengthEven := course.program.evenLength
      omega
    · exact absurd seven (course.program.noReserved s.ip ipEven pairFits combo)
    · have advancedEven : (s.ip + 2) % 2 = 0 := by omega
      rcases run with ⟨r, v, e⟩ | ⟨jnz, -, e⟩ | ⟨-, -, e⟩ | ⟨-, -, v, -, e⟩ | ⟨-, full, -⟩
      · exact ⟨_, e, course.of_sameProgram (step_sameProgram e) (by simp) (by simpa using ipEven) (by simp [hr])⟩
      · exact ⟨_, e, course.of_sameProgram ⟨rfl, rfl, rfl⟩ rfl (course.program.evenJumps s.ip ipEven pairFits jnz)
          (.inl hr)⟩
      · exact ⟨_, e, course.of_sameProgram ⟨rfl, rfl, rfl⟩ rfl advancedEven (.inl hr)⟩
      · exact ⟨_, e, course.of_sameProgram ⟨rfl, rfl, rfl⟩ rfl advancedEven (.inl hr)⟩
      · rw [outFull_eq_false_of_unbounded course.unbounded] at full
        cases full
  · exact ⟨s, step_of_halted halted, course⟩

/-- Where every state with `P` steps to a state with `P`, every run answers a state with `P`. -/
theorem run_next_of_step {P : State → Prop} (hstep : ∀ s, P s → ∃ t, step s = .next t ∧ P t) :
    ∀ (k : Nat) (s : State), P s → ∃ t, Sys2Proof.core.run k s = .next t ∧ P t
  | 0, s, hp => ⟨s, rfl, hp⟩
  | k + 1, s, hp => by
    obtain ⟨u, hu, hpu⟩ := hstep s hp
    rw [run_succ_of_next hu]
    exact run_next_of_step hstep k u hpu

/-- Settles O45: the start is on course, and every step stays there. -/
theorem wellFormedProgramsNeverTrap : Obligations.WellFormedProgramsNeverTrap := by
  intro k s program hr ipEven unbounded
  have start : s.OnCourse s.cause := ⟨program, rfl, ipEven, unbounded, .inl hr⟩
  obtain ⟨t, run, course⟩ := run_next_of_step (fun _ => State.OnCourse.step) k s start
  exact ⟨t, run, course.causeKept, course.program, course.ipEven, course.active⟩

end Sys2Proof.Machine
end

section
/-! SUPPORT. The register table of 10_state.md R13: O40. -/

namespace Sys2Proof.Machine

/-- No instruction writes two registers (10_state.md R13). -/
theorem instrWrites_unique {i : Instr} {r r' : Reg} (h : instrWrites i r = true) (h' : instrWrites i r' = true) :
    r = r' := by
  cases i with
  | adv | bxl | bst | bxc | bdv | cdv => exact (beq_iff_eq.1 h).trans (beq_iff_eq.1 h').symm
  | jnz | out | adv7 | bst7 | out7 | bdv7 | cdv7 => cases h

/-- An instruction leaves every register that it does not write (10_state.md R13). -/
theorem exec_keeps_reg {i : Instr} {r : Reg} (h : instrWrites i r = false) (s : State) :
    ∃ t, exec i s = .next t ∧ t.reg r = s.reg r := by
  rcases exec_cases i s with ⟨-, -, dest, v, writes, e⟩ | ⟨-, o, -, -, e⟩ | ⟨-, o, -, -, e⟩ | ⟨-, o, v, -, -, -, e⟩ |
    ⟨-, o, -, -, e⟩ | ⟨-, e⟩
  · have other : r ≠ dest := by
      rintro rfl
      cases h.symm.trans writes
    exact ⟨_, e, by rw [advance_reg, setReg_reg, if_neg other]⟩
  · exact ⟨_, e, by simp⟩
  · exact ⟨_, e, by simp⟩
  · exact ⟨_, e, by simp⟩
  · exact ⟨_, e, by simp⟩
  · exact ⟨_, e, by simp⟩

/-! ## What an instruction computes from the registers it reads -/

/-- The word that an instruction with a destination register writes, when its operand is legal. -/
def writtenValue (i : Instr) (s : State) : Word :=
  match i with
  | .adv o => shr (s.reg .a) ((combo o s).getD 0)
  | .bxl o => s.reg .b ^^^ lit o
  | .bst o => andSeven ((combo o s).getD 0)
  | .bxc _ => s.reg .b ^^^ s.reg .c
  | .bdv o => shr (s.reg .a) ((combo o s).getD 0)
  | .cdv o => shr (s.reg .a) ((combo o s).getD 0)
  | .jnz _ | .out _ | .adv7 | .bst7 | .out7 | .bdv7 | .cdv7 => 0

/-- With an operand other than 7 the operand's value goes on. -/
theorem withCombo_of_ne_seven {o : Elem} (h : o ≠ 7) (s : State) (go : Word → Outcome) :
    withCombo o s go = go ((combo o s).getD 0) := by
  obtain ⟨v, hv⟩ := combo_some_of_ne o s h
  rw [withCombo_some hv, hv]
  rfl

/-- A well-formed instruction with a destination register writes its value there and advances (10_state.md R13). -/
theorem exec_of_instrWrites {i : Instr} {dest : Reg} (wellFormed : i.wellFormed = true)
    (writes : instrWrites i dest = true) (s : State) :
    exec i s = .next (s.setReg dest (writtenValue i s)).advance := by
  cases i with
  | adv o | bst o | bdv o | cdv o =>
    obtain rfl := beq_iff_eq.1 writes
    exact withCombo_of_ne_seven (bne_iff_ne.1 wellFormed) s _
  | bxl o | bxc o =>
    obtain rfl := beq_iff_eq.1 writes
    rfl
  | jnz | out | adv7 | bst7 | out7 | bdv7 | cdv7 => cases writes

/-- A write leaves the registers it does not name (10_state.md R11). -/
theorem setReg_reg_other {r r' : Reg} (h : (r == r') = false) (s : State) (v : Word) :
    (s.setReg r v).reg r' = s.reg r' := by
  rw [setReg_reg, if_neg (Ne.symm (beq_eq_false_iff_ne.1 h))]

/-- Another register's value has no part in a combo operand (30_encoding.md R49). -/
theorem combo_setReg {o : Elem} {r : Reg} (h : comboReads o r = false) (s : State) (v : Word) :
    combo o (s.setReg r v) = combo o s := by
  rcases elem_cases o with rfl | rfl | rfl | rfl | rfl | rfl | rfl | rfl
  · rfl
  · rfl
  · rfl
  · rfl
  · cases r with
    | a => cases h
    | b | c => rfl
  · cases r with
    | b => cases h
    | a | c => rfl
  · cases r with
    | c => cases h
    | a | b => rfl
  · rfl

/-- The written value does not depend on a register that the instruction does not read (10_state.md R13). -/
theorem writtenValue_setReg {i : Instr} {r : Reg} (h : instrReads i r = false) (s : State) (v : Word) :
    writtenValue i (s.setReg r v) = writtenValue i s := by
  cases i with
  | adv o | bdv o | cdv o =>
    obtain ⟨notA, notCombo⟩ := Bool.or_eq_false_iff.1 h
    simp only [writtenValue, setReg_reg_other notA, combo_setReg notCombo]
  | bxl o => simp only [writtenValue, setReg_reg_other (r' := .b) h]
  | bst o => simp only [writtenValue, combo_setReg h]
  | bxc o =>
    obtain ⟨notB, notC⟩ := Bool.or_eq_false_iff.1 h
    simp only [writtenValue, setReg_reg_other notB, setReg_reg_other notC]
  | jnz | out | adv7 | bst7 | out7 | bdv7 | cdv7 => rfl

/-! ## Register writes commute with everything that does not touch the register -/

theorem setReg_setReg_same (s : State) (r : Reg) (v w : Word) : (s.setReg r v).setReg r w = s.setReg r w := by
  cases r <;> rfl

theorem setReg_setReg_comm {r r' : Reg} (h : r ≠ r') (s : State) (v w : Word) :
    (s.setReg r v).setReg r' w = (s.setReg r' w).setReg r v := by
  cases r <;> cases r'
  case a.a | b.b | c.c => exact absurd rfl h
  all_goals rfl

theorem advance_setReg (s : State) (r : Reg) (v : Word) : (s.setReg r v).advance = s.advance.setReg r v := by
  cases r <;> rfl

theorem jumpTo_setReg (s : State) (r : Reg) (v : Word) (target : Nat) :
    (s.setReg r v).jumpTo target = (s.jumpTo target).setReg r v := by
  cases r <;> rfl

theorem pushOut_setReg (s : State) (r : Reg) (v : Word) (x : Elem) :
    (s.setReg r v).pushOut x = (s.pushOut x).setReg r v := by
  cases r <;> rfl

theorem trap_setReg (s : State) (r : Reg) (v : Word) (code : Cause) :
    (s.setReg r v).trap code = (s.trap code).setReg r v := by
  cases r <;> rfl

/-- OUT and OUT_CAP are no registers. -/
theorem outFull_setReg (s : State) (r : Reg) (v : Word) : (s.setReg r v).outFull = s.outFull := by
  rw [State.outFull, State.outFull, setReg_out, setReg_outCap]

/-- jnz carries along every register but A, which it tests (42_control_transfer.md R75). -/
theorem exec_jnz_setReg {r : Reg} (h : (r == .a) = false) (o : Elem) (s : State) (v : Word) :
    exec (.jnz o) (s.setReg r v) = mapNext (fun t => t.setReg r v) (exec (.jnz o) s) := by
  have sameA : (s.setReg r v).a = s.a := setReg_reg_other h s v
  by_cases zero : s.a = 0
  · rw [exec_jnz_of_eq_zero o zero, exec_jnz_of_eq_zero o (sameA.trans zero), advance_setReg]
    rfl
  · rw [exec_jnz_of_ne_zero o zero, exec_jnz_of_ne_zero o (by rwa [sameA]), jumpTo_setReg]
    rfl

/-- out carries along every register that its operand does not name (43_output.md R80). -/
theorem exec_out_setReg {o : Elem} {r : Reg} (h : comboReads o r = false) (s : State) (v : Word) :
    exec (.out o) (s.setReg r v) = mapNext (fun t => t.setReg r v) (exec (.out o) s) := by
  rcases withCombo_cases o s (fun _ => .next s) with ⟨rfl, -⟩ | ⟨-, x, hx, -⟩
  · exact congrArg Host.Outcome.next (trap_setReg s r v .invalidOperand)
  · rw [exec_out_of_combo ((combo_setReg h s v).trans hx), exec_out_of_combo hx, outFull_setReg]
    split
    · rw [trap_setReg]
      rfl
    · rw [pushOut_setReg, advance_setReg]
      rfl

/-- An instruction carries along every register that it neither reads nor writes (10_state.md R13). -/
theorem exec_setReg_of_untouched {i : Instr} {r : Reg} (wellFormed : i.wellFormed = true)
    (reads : instrReads i r = false) (writes : instrWrites i r = false) (s : State) (v : Word) :
    exec i (s.setReg r v) = mapNext (fun t => t.setReg r v) (exec i s) := by
  have withDestination (dest : Reg) (hdest : instrWrites i dest = true) :
      exec i (s.setReg r v) = mapNext (fun t => t.setReg r v) (exec i s) := by
    have other : r ≠ dest := by
      rintro rfl
      cases hdest.symm.trans writes
    rw [exec_of_instrWrites wellFormed hdest, exec_of_instrWrites wellFormed hdest, writtenValue_setReg reads,
      setReg_setReg_comm other, advance_setReg]
    rfl
  cases i with
  | adv => exact withDestination .a rfl
  | bxl | bst | bxc | bdv => exact withDestination .b rfl
  | cdv => exact withDestination .c rfl
  | jnz o => exact exec_jnz_setReg reads o s v
  | out o => exact exec_out_setReg reads s v
  | adv7 | bst7 | out7 | bdv7 | cdv7 => exact congrArg Host.Outcome.next (trap_setReg s r v .invalidOperand)

/-- What an instruction's destination held before does not matter when the instruction does not read it
(10_state.md R13). -/
theorem exec_setReg_of_destination {i : Instr} {r : Reg} (wellFormed : i.wellFormed = true)
    (reads : instrReads i r = false) (writes : instrWrites i r = true) (s : State) (v : Word) :
    exec i (s.setReg r v) = exec i s := by
  rw [exec_of_instrWrites wellFormed writes, exec_of_instrWrites wellFormed writes, writtenValue_setReg reads,
    setReg_setReg_same]

/-- Settles O40: the clauses are the four facts above. -/
theorem registerReadWriteTable : Obligations.RegisterReadWriteTable :=
  ⟨fun _ s _ writes => exec_keeps_reg writes s,
   fun _ s _ v wellFormed reads writes => exec_setReg_of_untouched wellFormed reads writes s v,
   fun _ s _ v wellFormed reads writes => exec_setReg_of_destination wellFormed reads writes s v,
   fun _ _ _ writes writes' => instrWrites_unique writes writes'⟩

end Sys2Proof.Machine
end

section
/-! SUPPORT. The shift's laws and what instructions do to A and B: O17, O21, O22, O26 and O36. -/

namespace Sys2Proof.Machine

/-- Two shifts divide by the product of their powers: the amounts add up (40_shift_divide.md R65). -/
theorem shr_shr_toNat (a m n : Word) : (shr (shr a m) n).toNat = a.toNat / 2 ^ (m.toNat + n.toNat) := by
  rw [shr_toNat, shr_toNat, Nat.div_div_eq_div_mul, pow_add]

/-- A value below the power of two is shifted out whole (40_shift_divide.md R65). -/
theorem shr_eq_zero_of_lt {a n : Word} (h : a.toNat < 2 ^ n.toNat) : shr a n = 0 :=
  BitVec.eq_of_toNat_eq ((shr_toNat a n).trans (Nat.div_eq_of_lt h))

/-- A shift by 0 is the value itself. -/
theorem shr_zero (a : Word) : shr a 0 = a :=
  BitVec.eq_of_toNat_eq ((shr_toNat a 0).trans (Nat.div_one _))

/-- A shift never makes a value larger (40_shift_divide.md R65). -/
theorem shr_toNat_le (a n : Word) : (shr a n).toNat ≤ a.toNat := by
  rw [shr_toNat]
  exact Nat.div_le_self _ _

/-- Bits 63 to 6 of an amount are clear exactly when it is below 64 (92_eei_decisions.md D8). -/
theorem highBits_eq_zero_iff (n : Word) : n.extractLsb' 6 58 = 0 ↔ n.toNat < 64 := by
  have value : (n.extractLsb' 6 58).toNat = n.toNat / 64 := by
    have := n.isLt
    rw [BitVec.extractLsb'_toNat, Nat.shiftRight_eq_div_pow]
    omega
  have zero : (0 : BitVec 58).toNat = 0 := rfl
  rw [← BitVec.toNat_inj, value, zero]
  omega

/-- An amount below 64 is its bits 5 to 0 (92_eei_decisions.md D8). -/
theorem lowBits_toNat_of_lt {n : Word} (h : n.toNat < 64) : (n.extractLsb' 0 6).toNat = n.toNat := by
  rw [BitVec.extractLsb'_toNat, Nat.shiftRight_zero, Nat.mod_eq_of_lt h]

/-- Settles O17: the shifter's two ranges of the amount, and the laws of the division by a power of two. -/
theorem shiftLaws : Obligations.ShiftLaws := by
  refine ⟨fun a n => ?_, shr_shr_toNat, fun a n => shr_eq_zero_of_lt,
    fun a => ⟨shr_zero a, shr_eq_zero_of_lt Nat.lt_two_pow_self⟩, shr_toNat_le⟩
  by_cases small : n.toNat < 64
  · rw [shr, if_pos small, if_pos ((highBits_eq_zero_iff n).2 small), lowBits_toNat_of_lt small]
  · rw [shr, if_neg small, if_neg (mt (highBits_eq_zero_iff n).1 small)]

/-- adv is the only instruction that writes A (10_state.md R13). -/
theorem eq_adv_of_instrWrites_a {i : Instr} (h : instrWrites i .a = true) : ∃ o, i = .adv o := by
  cases i with
  | adv o => exact ⟨o, rfl⟩
  | bxl | bst | bxc | bdv | cdv | jnz | out | adv7 | bst7 | out7 | bdv7 | cdv7 => cases h

/-- An instruction leaves A, or it is an adv with a legal operand, which shifts A (40_shift_divide.md R66). -/
theorem exec_a_cases {i : Instr} {s t : State} (e : exec i s = .next t) :
    t.a = s.a ∨ ∃ o, i = .adv o ∧ o ≠ 7 ∧ ∃ v, t.a = shr s.a v := by
  cases writes : instrWrites i .a with
  | false =>
    obtain ⟨u, hu, same⟩ := exec_keeps_reg writes s
    cases e.symm.trans hu
    exact .inl same
  | true =>
    obtain ⟨o, rfl⟩ := eq_adv_of_instrWrites_a writes
    by_cases seven : o = 7
    · subst seven
      cases e.symm.trans (exec_of_isReserved (i := .adv 7) rfl s)
      exact .inl rfl
    · have wellFormed : (Instr.adv o).wellFormed = true := bne_iff_ne.2 seven
      cases e.symm.trans (exec_of_instrWrites wellFormed writes s)
      exact .inr ⟨o, rfl, seven, _, rfl⟩

/-- Only opcode 0 decodes to adv. -/
theorem decodeElems_eq_adv : ∀ opcode operand o : Elem, decodeElems opcode operand = .adv o →
    opcode = 0 ∧ operand = o := by decide

/-- A step leaves A, or it executes a fetched adv with a legal operand, which shifts A (40_shift_divide.md R66). -/
theorem step_a_cases {s t : State} (h : step s = .next t) :
    t.a = s.a ∨
    (s.ip + 2 ≤ s.plen ∧ s.mem.read s.ip = 0 ∧ s.mem.read (s.ip + 1) ≠ 7 ∧ ∃ v, t.a = shr s.a v) := by
  by_cases hr : s.runState = .running
  · rcases step_running_cases hr with ⟨-, e⟩ | ⟨-, e⟩ | ⟨pairFits, e⟩
    · cases h.symm.trans e
      exact .inl rfl
    · cases h.symm.trans e
      exact .inl rfl
    · rcases exec_a_cases (e.symm.trans h) with kept | ⟨o, isAdv, notSeven, shifted⟩
      · exact .inl kept
      · obtain ⟨adv, rfl⟩ := decodeElems_eq_adv _ _ _ isAdv
        exact .inr ⟨pairFits, adv, notSeven, shifted⟩
  · obtain ⟨-, rfl⟩ := step_idle_next hr h
    exact .inl rfl

/-- Settles O21: a step leaves A or shifts it, and a shift never makes it larger. -/
theorem onlyAdvChangesAAndNeverUpwards : Obligations.OnlyAdvChangesAAndNeverUpwards := by
  intro s t h
  rcases step_a_cases h with kept | ⟨pairFits, adv, notSeven, v, shifted⟩
  · exact ⟨by rw [kept], fun changed => absurd kept changed⟩
  · exact ⟨by rw [shifted]; exact shr_toNat_le s.a v, fun _ => ⟨pairFits, adv, notSeven⟩⟩

/-- adv by a literal shifts A by the literal's number (30_encoding.md R49, 40_shift_divide.md R66). -/
theorem exec_adv_lit {o : Elem} (h : o.toNat ≤ 3) (s : State) :
    exec (.adv o) s = .next (s.setReg .a (shr s.a (lit o))).advance :=
  withCombo_some (combo_eq_lit h s) _

/-- Settles O22: each adv shifts A by its literal, and the amounts add up. -/
theorem twoAdvByLiteralsAddUp : Obligations.TwoAdvByLiteralsAddUp := by
  intro m n s t u hm hn ht hu
  cases ht.symm.trans (exec_adv_lit hm s)
  cases hu.symm.trans (exec_adv_lit hn _)
  have shifted : shr (shr s.a (lit m)) (lit n) = BitVec.ofNat 64 (s.a.toNat / 2 ^ (m.toNat + n.toNat)) := by
    rw [← lit_toNat m, ← lit_toNat n, ← shr_shr_toNat, BitVec.ofNat_toNat, BitVec.setWidth_eq]
  rw [← shifted]
  rfl

/-- Two writes of B, each with an advance, that bring B back move IP by 4 and nothing else. -/
theorem setReg_b_advance_twice {s : State} {v w : Word} (restored : w = s.b) :
    ((s.setReg .b v).advance.setReg .b w).advance = { s with ip := s.ip + 4 } := by
  rw [restored]
  rfl

theorem xor_xor_cancel (b x : Word) : b ^^^ x ^^^ x = b := by
  rw [BitVec.xor_assoc, BitVec.xor_self, BitVec.xor_zero]

/-- Settles O26: the second xor is with the same word, for bxc because bxc leaves C. -/
theorem xorTwiceRestoresB : Obligations.XorTwiceRestoresB := by
  rintro o i s t u (rfl | rfl) ht hu
  · cases ht.symm.trans (exec_bxl o s)
    cases hu.symm.trans (exec_bxl o _)
    exact setReg_b_advance_twice (xor_xor_cancel s.b (lit o))
  · cases ht.symm.trans (exec_bxc o s)
    cases hu.symm.trans (exec_bxc o _)
    exact setReg_b_advance_twice (xor_xor_cancel s.b s.c)

/-- Settles O36: each pair of terms is reserved, with the same two elements. -/
theorem reservedRowsTakeTheTrap : Obligations.ReservedRowsTakeTheTrap := by
  intro s i j h
  have facts : isReserved i = true ∧ isReserved j = true ∧ encodeWord i = encodeWord j := by
    rcases h with ⟨rfl, rfl⟩ | ⟨rfl, rfl⟩ | ⟨rfl, rfl⟩ | ⟨rfl, rfl⟩ | ⟨rfl, rfl⟩ <;> exact ⟨rfl, rfl, rfl⟩
  obtain ⟨hi, hj, sameWord⟩ := facts
  exact ⟨exec_of_isReserved hi s, (exec_of_isReserved hj s).trans (exec_of_isReserved hi s).symm, sameWord⟩

end Sys2Proof.Machine
end

section
/-! SUPPORT. The instruction pointer, the output and the traps: O28, O29, O30, O31, O33, O34, O37 and O38. -/

namespace Sys2Proof.Machine

/-! ## The instruction pointer -/

/-- A reserved word's operand element is 7 (30_encoding.md R51). -/
theorem operand_of_isReserved {i : Instr} (h : isReserved i = true) : i.operand = 7 := by
  cases i with
  | adv | bst | out | bdv | cdv => exact beq_iff_eq.1 h
  | adv7 | bst7 | out7 | bdv7 | cdv7 => rfl
  | bxl | jnz | bxc => cases h

/-- Settles O28: by the cases of an instruction. -/
theorem pointerUpdate : Obligations.PointerUpdate := by
  intro i s hr
  rcases exec_cases i s with ⟨-, notJnz, r, v, -, e⟩ | ⟨-, o, rfl, notZero, e⟩ | ⟨-, o, rfl, zero, e⟩ |
    ⟨-, o, v, rfl, -, -, e⟩ | ⟨-, o, rfl, full, e⟩ | ⟨reserved, e⟩
  · refine ⟨_, e, .inr ⟨by simp [hr], ?_⟩⟩
    split
    · exact absurd rfl (notJnz _)
    · simp
  · exact ⟨_, e, .inr ⟨hr, (if_neg notZero).symm⟩⟩
  · exact ⟨_, e, .inr ⟨hr, (if_pos zero).symm⟩⟩
  · exact ⟨_, e, .inr ⟨hr, rfl⟩⟩
  · exact ⟨_, e, .inl ⟨rfl, rfl, .inr ⟨rfl, (outFull_iff s).1 full⟩⟩⟩
  · exact ⟨_, e, .inl ⟨rfl, rfl, .inl ⟨operandClass_of_isReserved reserved, operand_of_isReserved reserved⟩⟩⟩

/-- Where a step leaves IP: where it was, two elements on, or at the literal of a taken jnz (30_encoding.md R56). -/
theorem step_ip_cases {s t : State} (h : step s = .next t) :
    t.ip = s.ip ∨
    (t.ip = s.ip + 2 ∧ s.runState = .running ∧ s.ip + 2 ≤ s.plen) ∨
    (t.ip = (s.mem.read (s.ip + 1)).toNat ∧ s.ip + 2 ≤ s.plen ∧ s.mem.read s.ip = 3 ∧ s.a ≠ 0) := by
  by_cases hr : s.runState = .running
  · rcases step_elem_cases hr with ⟨-, e⟩ | ⟨-, e⟩ | ⟨-, -, -, e⟩ | ⟨pairFits, -, run⟩
    · cases h.symm.trans e
      exact .inl rfl
    · cases h.symm.trans e
      exact .inl rfl
    · cases h.symm.trans e
      exact .inl rfl
    · rcases run with ⟨r, v, e⟩ | ⟨jnz, notZero, e⟩ | ⟨-, -, e⟩ | ⟨-, -, v, -, e⟩ | ⟨-, -, e⟩
      · cases h.symm.trans e
        exact .inr (.inl ⟨by simp, hr, pairFits⟩)
      · cases h.symm.trans e
        exact .inr (.inr ⟨rfl, pairFits, jnz, notZero⟩)
      · cases h.symm.trans e
        exact .inr (.inl ⟨rfl, hr, pairFits⟩)
      · cases h.symm.trans e
        exact .inr (.inl ⟨rfl, hr, pairFits⟩)
      · cases h.symm.trans e
        exact .inl rfl
  · obtain ⟨-, rfl⟩ := step_idle_next hr h
    exact .inl rfl

/-- Settles O29: a jump's literal is at most 7. -/
theorem highIndicesAreReachedByFallingThrough : Obligations.HighIndicesAreReachedByFallingThrough := by
  intro s t h high
  rcases step_ip_cases h with kept | advanced | ⟨jumped, -⟩
  · exact .inl kept
  · exact .inr advanced
  · have literal := (s.mem.read (s.ip + 1)).isLt
    omega

/-- Settles O31: only a taken jnz can change the parity of IP. -/
theorem oddPointerStaysOdd : Obligations.OddPointerStaysOdd := by
  intro s t odd h
  rcases step_ip_cases h with kept | ⟨advanced, -⟩ | ⟨jumped, pairFits, jnz, notZero⟩
  · exact .inl (by omega)
  · exact .inl (by omega)
  · rcases Nat.mod_two_eq_zero_or_one (s.mem.read (s.ip + 1)).toNat with even | oddLiteral
    · exact .inr ⟨pairFits, jnz, even, notZero⟩
    · exact .inl (by rw [jumped, oddLiteral])

/-- A taken jnz to its own index answers the same state (42_control_transfer.md R75). -/
theorem step_of_self_jump {s : State} (hr : s.runState = .running) (pairFits : s.ip + 2 ≤ s.plen)
    (jnz : s.mem.read s.ip = 3) (self : (s.mem.read (s.ip + 1)).toNat = s.ip) (notZero : s.a ≠ 0) :
    step s = .next s := by
  rw [step_of_pair hr pairFits, exec_decodeElems, jnz]
  refine (exec_jnz_of_ne_zero _ notZero).trans ?_
  rw [self]
  rfl

/-- A state that steps to itself is what every run from it answers. -/
theorem run_of_step_self {s : State} (h : step s = .next s) (k : Nat) : Sys2Proof.core.run k s = .next s := by
  induction k with
  | zero => rfl
  | succ k ih => rw [run_succ_of_next h, ih]

/-- Settles O30: the state steps to itself, so every run answers it, RUNNING. -/
theorem selfJumpRepeatsForEver : Obligations.SelfJumpRepeatsForEver := by
  intro s hr pairFits jnz self notZero
  have run := run_of_step_self (step_of_self_jump hr pairFits jnz self notZero)
  exact ⟨fun k => ⟨s, run k, hr⟩, run⟩

/-! ## The output -/

/-- A step leaves OUT, or it is a fetched out that appends the low element of its combo value (43_output.md R80). -/
theorem step_out_cases {s t : State} (h : step s = .next t) :
    t.out = s.out ∨
    (s.runState = .running ∧ s.ip + 2 ≤ s.plen ∧ s.mem.read s.ip = 5 ∧
      ∃ v, combo (s.mem.read (s.ip + 1)) s = some v ∧ t.out = s.out ++ [lowElem v]) := by
  by_cases hr : s.runState = .running
  · rcases step_elem_cases hr with ⟨-, e⟩ | ⟨-, e⟩ | ⟨-, -, -, e⟩ | ⟨pairFits, -, run⟩
    · cases h.symm.trans e
      exact .inl rfl
    · cases h.symm.trans e
      exact .inl rfl
    · cases h.symm.trans e
      exact .inl rfl
    · rcases run with ⟨r, v, e⟩ | ⟨-, -, e⟩ | ⟨-, -, e⟩ | ⟨out, -, v, hv, e⟩ | ⟨-, -, e⟩
      · cases h.symm.trans e
        exact .inl (by simp)
      · cases h.symm.trans e
        exact .inl rfl
      · cases h.symm.trans e
        exact .inl rfl
      · cases h.symm.trans e
        exact .inr ⟨hr, pairFits, out, v, hv, rfl⟩
      · cases h.symm.trans e
        exact .inl rfl
  · obtain ⟨-, rfl⟩ := step_idle_next hr h
    exact .inl rfl

/-- The output stream presents what was appended (43_output.md R81). -/
theorem outputEvent_of_append {s t : State} {event : List Elem} (h : t.out = s.out ++ event) :
    outputEvent s t = event := by
  rw [outputEvent, h, List.drop_left]

/-- Settles O33: the output event is what the step appends. -/
theorem outputIsAppendOnly : Obligations.OutputIsAppendOnly := by
  intro s t h
  rcases step_out_cases h with kept | ⟨hr, pairFits, out, v, hv, appended⟩
  · have nothing : t.out = s.out ++ [] := by rw [kept, List.append_nil]
    rw [outputEvent_of_append nothing]
    exact ⟨nothing, .inl rfl⟩
  · rw [outputEvent_of_append appended]
    exact ⟨appended, .inr ⟨hr, pairFits, out, v, hv, by rw [lowElem_eq_ofNat_mod]⟩⟩

/-! ## The traps -/

/-- Settles O34: of the three traps a step can take, only the one on a full OUT has the code. -/
theorem unboundedOutputNeverOverflows : Obligations.UnboundedOutputNeverOverflows := by
  intro s t unbounded hr h trapped
  rcases step_trap_cases hr h trapped with ⟨-, rfl⟩ | ⟨-, -, -, rfl⟩ | ⟨-, -, -, full, -⟩
  · exact nofun
  · exact nofun
  · rw [outFull_eq_false_of_unbounded unbounded] at full
    cases full

/-- Settles O37: a step that ends in TRAPPED neither halted nor went on. -/
theorem trapsArePrecise : Obligations.TrapsArePrecise := by
  intro s t hr h trapped
  rcases step_outcome_of_next hr h with ⟨-, rfl⟩ | ⟨code, hcode, rfl⟩ | ⟨running, -⟩
  · cases trapped
  · exact ⟨hcode, rfl⟩
  · cases running.symm.trans trapped

/-- Settles O38: none of the three traps a step can take has the code. -/
theorem unknownOpcodeIsNeverRaised : Obligations.UnknownOpcodeIsNeverRaised := by
  intro s t hr h trapped
  rcases step_trap_cases hr h trapped with ⟨-, rfl⟩ | ⟨-, -, -, rfl⟩ | ⟨-, -, -, -, rfl⟩
  · exact nofun
  · exact nofun
  · exact nofun

end Sys2Proof.Machine
end

section
/-! SUPPORT. Reset, launch and the host (70_reset_and_hazards.md): O46, O47, O48, O49, O50, O51, O52 and O53. -/

namespace Sys2Proof.Machine

/-- Settles O46: the reset values, and the fetch at the end of an empty program. -/
theorem resetState : Obligations.ResetState :=
  ⟨rfl, rfl, rfl, rfl, rfl, rfl, rfl, rfl, rfl, rfl, step_of_atEnd rfl (Nat.le_refl 0)⟩

/-! ## Load and launch -/

/-- A launch with three values below 2^64 is accepted in every run state (70_reset_and_hazards.md R108). -/
theorem hostMove_launch {a b c : Nat} (ha : a < 2 ^ 64) (hb : b < 2 ^ 64) (hc : c < 2 ^ 64) (s : State) :
    hostMove (.launch a b c) s =
      .next (s.launch (BitVec.ofNat 64 a) (BitVec.ofNat 64 b) (BitVec.ofNat 64 c)) :=
  if_pos ⟨ha, hb, hc⟩

/-- The host's launch with the numbers of three words sets those words. -/
theorem hostMove_launch_words (a b c : Word) (s : State) :
    hostMove (.launch a.toNat b.toNat c.toNat) s = .next (s.launch a b c) := by
  rw [hostMove_launch a.isLt b.isLt c.isLt]
  simp only [BitVec.ofNat_toNat, BitVec.setWidth_eq]

/-- Settles O47: three words are in range, and a launch writes every item but the program. -/
theorem launchSetsEveryItem : Obligations.LaunchSetsEveryItem := by
  refine ⟨fun s a b c => hostMove_launch_words a b c s, fun s a b c large => ?_⟩
  exact if_neg (by omega)

/-- A program of numbers up to 7 that fits the program memory is loaded outside a run (70_reset_and_hazards.md R106). -/
theorem hostMove_loadProgram {s : State} {tokens : List Nat} (hr : s.runState ≠ .running)
    (small : ∀ x ∈ tokens, x ≤ 7) (fits : tokens.length ≤ Config.plenMax) :
    hostMove (.loadProgram tokens) s = .next (s.loadTape (tokens.map (BitVec.ofNat 3))) := by
  have noneLarge : ¬ tokens.any (fun token => 7 < token) = true := by
    intro large
    obtain ⟨x, hx, hlarge⟩ := List.any_eq_true.1 large
    exact Nat.not_lt.2 (small x hx) (of_decide_eq_true hlarge)
  rw [hostMove, if_neg hr, if_neg noneLarge, if_neg (Nat.not_lt.2 fits)]

/-- Numbers up to 7 are kept by the passage to elements and back (20_memory.md R30). -/
theorem map_toNat_map_ofNat {tokens : List Nat} (small : ∀ x ∈ tokens, x ≤ 7) :
    (tokens.map (BitVec.ofNat 3)).map BitVec.toNat = tokens := by
  have kept : ∀ x ∈ tokens, (BitVec.toNat ∘ BitVec.ofNat 3) x = id x := fun x hx => by
    have := small x hx
    exact Nat.mod_eq_of_lt (by omega)
  rw [List.map_map, List.map_congr_left kept, List.map_id]

/-- Settles O48: the load is accepted, and the memory of a tape is canonical, reads as the tape and lists nothing past
it. -/
theorem programLoadStoresTheTape : Obligations.ProgramLoadStoresTheTape := by
  refine ⟨fun s tokens hr small fits => ?_, fun s tokens hr => if_pos hr⟩
  refine ⟨_, hostMove_loadProgram hr small fits, ?_, Memory.wf_ofTape _, ?_, fun i hi => ?_⟩
  · rw [State.loadTape, List.length_map]
  · rw [tape_loadTape, map_toNat_map_ofNat small]
  · rw [loadTape_mem, Memory.read_ofTape, List.getD_eq_default _ _ (by rwa [List.length_map])]

/-- What the host's check accepts: three values below 2^64 and an even, nonempty list of numbers up to 7
(70_reset_and_hazards.md R106). -/
theorem hostAccepts_iff {a b c : Nat} {tokens : List Nat} : hostAccepts a b c tokens = true ↔
    (a < 2 ^ 64 ∧ b < 2 ^ 64 ∧ c < 2 ^ 64) ∧ (∀ x ∈ tokens, x ≤ 7) ∧ tokens ≠ [] ∧ tokens.length % 2 = 0 := by
  simp [hostAccepts, and_assoc]

/-- Settles O49: the load and the launch are accepted, and the launch keeps the loaded program. -/
theorem acceptedInputStartsARun : Obligations.AcceptedInputStartsARun := by
  intro s a b c tokens accepted hr fits
  obtain ⟨⟨ha, hb, hc⟩, small, nonempty, lengthEven⟩ := hostAccepts_iff.1 accepted
  have positive := List.length_pos_of_ne_nil nonempty
  refine ⟨_, _, hostMove_loadProgram hr small fits, hostMove_launch ha hb hc _,
    ?_, ?_, ?_, rfl, rfl, rfl, rfl, ?_, ?_, ?_⟩
  · rw [launch_a, BitVec.toNat_ofNat, Nat.mod_eq_of_lt ha]
  · rw [launch_b, BitVec.toNat_ofNat, Nat.mod_eq_of_lt hb]
  · rw [launch_c, BitVec.toNat_ofNat, Nat.mod_eq_of_lt hc]
  · exact (congrArg (List.map BitVec.toNat) (tape_loadTape s _)).trans (map_toNat_map_ofNat small)
  · rw [launch_plen, loadTape_plen, List.length_map, lengthEven]
  · rw [launch_plen, loadTape_plen, List.length_map]
    omega

/-- Settles O50: the launched states are equal, for a launch keeps the program and OUT_CAP alone. -/
theorem launchForgetsTheOldRun : Obligations.LaunchForgetsTheOldRun := by
  intro s s' a b c k sameMem samePlen sameCap
  have launched : s.launch a b c = s'.launch a b c := by
    rw [State.launch, State.launch, sameMem, samePlen, sameCap]
  rw [launched]

/-! ## The FSM and what the host reads -/

/-- Settles O51: the launch, the fetch at the end, and the two ways a step inside the program goes. -/
theorem fsmTable : Obligations.FsmTable := by
  refine ⟨fun s a b c => ?_, fun s hr atEnd => step_of_atEnd hr atEnd, fun s hr inside => ?_,
    fun s t hr h => (step_idle_next hr h).2⟩
  · exact ⟨_, hostMove_launch_words a b c s, rfl, rfl, rfl, rfl, rfl, rfl, rfl⟩
  · rcases step_outcome hr with ⟨atEnd, -⟩ | ⟨-, code, hcode, e⟩ | ⟨-, t, e, running, cause⟩
    · omega
    · exact ⟨_, e, .inr ⟨hcode, rfl⟩⟩
    · exact ⟨t, e, .inl ⟨running, cause⟩⟩

/-- A cause is read back from its code (60_exceptions.md R85). -/
theorem ofCode_code (c : Cause) : Cause.ofCode c.code = some c := by
  cases c <;> rfl

/-- Settles O52: by the run state; the codes are those of R18 and R85. -/
theorem hostReadsTheResult : Obligations.HostReadsTheResult := by
  refine ⟨fun s h => ?_, fun s h => ?_, fun s h => ?_, ofCode_code, rfl, rfl, rfl, rfl, rfl⟩
  all_goals simp [State.result, State.status, RunState.code, h]

/-- Before a run has ended nothing is read back (10_state.md R23). -/
theorem readBack_eq_none {s : State} (h : s.runState = .running ∨ s.runState = .unlaunched) : s.readBack = none := by
  rcases h with h | h <;> simp [State.readBack, h]

/-- Settles O53: the step that ends a run is a halt or a trap, and both leave the six items. -/
theorem endedRunIsReadBack : Obligations.EndedRunIsReadBack := by
  refine ⟨fun s ended => readBack_eq_some.2 ⟨ended, rfl⟩, fun s => readBack_eq_none, fun s t hr h ended => ?_⟩
  rcases step_outcome_of_next hr h with ⟨-, rfl⟩ | ⟨code, -, rfl⟩ | ⟨running, -⟩
  · exact readBack_halt s
  · exact readBack_trap s code
  · exact absurd running ended

end Sys2Proof.Machine
end
